-- ==== Sys2Proof/Word.lean ====
section
/-! DEFINITION. The word types of the machine. Every value is unsigned and bit 0 is its least significant bit
(spec/00_scope.md R6). -/

namespace Sys2Proof

/-- An 8-bit value: a memory byte, a general register, a timer, the immediate `kk` (R20, R28, R32, R72). -/
abbrev Byte := BitVec 8

/-- A 16-bit value: an instruction word, `PC`, `I`, a stack entry (R22, R23, R25, R70). -/
abbrev Word := BitVec 16

/-- The 12-bit address immediate `nnn` (R72). -/
abbrev Addr12 := BitVec 12

/-- A 4-bit value: the immediate `n`, the stack pointer `SP` (R26, R72). -/
abbrev Nibble := BitVec 4

/-- The number of one of the sixteen general registers, or of one of the sixteen keys (R20, R29). -/
abbrev RegIdx := Fin 16

end Sys2Proof
end

