-- ==== Sys2Proof/Config.lean ====
section
/-! DEFINITION. What an implementation fixes (the parameters of spec/00_scope.md R5 that are arguments of the model)
and the one free value of the machine, the external random byte (spec/60_exceptions.md R214). -/

namespace Sys2Proof

/-- Glyphs 0 to 3 of the default font, five rows each (R32). -/
def Config.fontRows0to3 : List Byte :=
  [0xF0, 0x90, 0x90, 0x90, 0xF0] ++ [0x20, 0x60, 0x20, 0x20, 0x70] ++
  [0xF0, 0x10, 0xF0, 0x80, 0xF0] ++ [0xF0, 0x10, 0xF0, 0x10, 0xF0]

/-- Glyphs 4 to 7 of the default font (R32). -/
def Config.fontRows4to7 : List Byte :=
  [0x90, 0x90, 0xF0, 0x10, 0x10] ++ [0xF0, 0x80, 0xF0, 0x10, 0xF0] ++
  [0xF0, 0x80, 0xF0, 0x90, 0xF0] ++ [0xF0, 0x10, 0x20, 0x40, 0x40]

/-- Glyphs 8 to B of the default font (R32). -/
def Config.fontRows8toB : List Byte :=
  [0xF0, 0x90, 0xF0, 0x90, 0xF0] ++ [0xF0, 0x90, 0xF0, 0x10, 0xF0] ++
  [0xF0, 0x90, 0xF0, 0x90, 0x90] ++ [0xE0, 0x90, 0xE0, 0x90, 0xE0]

/-- Glyphs C to F of the default font (R32). -/
def Config.fontRowsCtoF : List Byte :=
  [0xF0, 0x80, 0x80, 0x80, 0xF0] ++ [0xE0, 0x90, 0x90, 0x90, 0xE0] ++
  [0xF0, 0x80, 0xF0, 0x80, 0xF0] ++ [0xF0, 0x80, 0xF0, 0x80, 0x80]

/-- The default of the parameter `FONT[0..79]` (R5, R32; decision D14): the source gives no bytes, the spec gives this
table as the default. `Machine.resetWith` takes any other table. PRESUMED, unsafe: log entry 2. -/
def Config.font : Vector Byte 80 :=
  ⟨⟨Config.fontRows0to3 ++ Config.fontRows4to7 ++ Config.fontRows8toB ++ Config.fontRowsCtoF⟩, rfl⟩

/-- The two sentinel values of the framebuffer export, distinct and of one width (R31; decision D15). They are a
parameter of `Machine.fbExport`; the state never holds them. -/
structure Config.Sentinels where
  width : Nat
  set : BitVec width
  clear : BitVec width
  distinct : set ≠ clear

/-- The default sentinels `SENT_SET` = 1 and `SENT_CLEAR` = 0 (R5, R31). The width 8 is a DESIGN CHOICE (the spec
gives none), unsafe: log entry 3. -/
def Config.defaultSentinels : Config.Sentinels :=
  { width := 8, set := 1, clear := 0, distinct := by decide }

/-- The byte the external generator supplies at draw number `k` (R34, R214; decision D16): a free value, with no body,
so no proof can see any byte of the sequence. Log entry 1. -/
opaque Config.randomByte : Nat → Byte

end Sys2Proof
end

