-- ==== Sys2Proof/Syntax.lean ====
section
/-! DEFINITION. The instruction set: one constructor per row of spec/opcode_table.json, in the table's order
(spec/30_encoding.md R73, R75, R77). Field types are exactly the widths of R72. -/

namespace Sys2Proof

/-- An instruction. `x` and `y` number general registers, `kk`, `nnn` and `n` are unsigned immediates (R72, R74). -/
inductive Instr where
  /-- 00E0: clear the framebuffer (R160). -/
  | cls
  /-- 00EE: return from subroutine (R100). -/
  | ret
  /-- 1nnn: jump (R101). -/
  | jp (nnn : Addr12)
  /-- 2nnn: call subroutine (R102). -/
  | call (nnn : Addr12)
  /-- 3xkk: skip if register equals immediate (R103). -/
  | seImm (x : RegIdx) (kk : Byte)
  /-- 4xkk: skip if register differs from immediate (R104). -/
  | sneImm (x : RegIdx) (kk : Byte)
  /-- 5xy0: skip if two registers are equal (R105). -/
  | seReg (x : RegIdx) (y : RegIdx)
  /-- 6xkk: load immediate (R120). -/
  | ldImm (x : RegIdx) (kk : Byte)
  /-- 7xkk: add immediate, no flag (R121). -/
  | addImm (x : RegIdx) (kk : Byte)
  /-- 8xy0: copy register (R122). -/
  | ldReg (x : RegIdx) (y : RegIdx)
  /-- 8xy1: bitwise or (R123). -/
  | orReg (x : RegIdx) (y : RegIdx)
  /-- 8xy2: bitwise and (R124). -/
  | andReg (x : RegIdx) (y : RegIdx)
  /-- 8xy3: bitwise exclusive or (R125). -/
  | xorReg (x : RegIdx) (y : RegIdx)
  /-- 8xy4: add with carry flag (R126). -/
  | addReg (x : RegIdx) (y : RegIdx)
  /-- 8xy5: subtract (R127). -/
  | sub (x : RegIdx) (y : RegIdx)
  /-- 8xy6: shift right by one; `y` is a don't-care field (R79) (R128). -/
  | shr (x : RegIdx) (y : RegIdx)
  /-- 8xy7: reverse subtract (R129). -/
  | subn (x : RegIdx) (y : RegIdx)
  /-- 8xyE: shift left by one; `y` is a don't-care field (R79) (R130). -/
  | shl (x : RegIdx) (y : RegIdx)
  /-- 9xy0: skip if two registers differ (R106). -/
  | sneReg (x : RegIdx) (y : RegIdx)
  /-- Annn: load address register (R140). -/
  | ldI (nnn : Addr12)
  /-- Bnnn: jump with offset (R107). -/
  | jpV0 (nnn : Addr12)
  /-- Cxkk: masked random byte (R131). -/
  | rnd (x : RegIdx) (kk : Byte)
  /-- Dxyn: draw a sprite by XOR with collision detection (R161). -/
  | drw (x : RegIdx) (y : RegIdx) (n : Nibble)
  /-- Ex9E: skip if key is pressed (R170). -/
  | skp (x : RegIdx)
  /-- ExA1: skip if key is not pressed (R171). -/
  | sknp (x : RegIdx)
  /-- Fx07: read the delay timer (R172). -/
  | ldVxDt (x : RegIdx)
  /-- Fx0A: blocking key read (R173). -/
  | ldVxK (x : RegIdx)
  /-- Fx15: set the delay timer (R174). -/
  | ldDtVx (x : RegIdx)
  /-- Fx18: set the sound timer (R175). -/
  | ldStVx (x : RegIdx)
  /-- Fx1E: add register to address register (R141). -/
  | addI (x : RegIdx)
  /-- Fx29: address of the glyph for a digit (R142). -/
  | ldF (x : RegIdx)
  /-- Fx33: store three decimal digits (R143). -/
  | ldB (x : RegIdx)
  /-- Fx55: store registers 0..x (R144). -/
  | stRegs (x : RegIdx)
  /-- Fx65: load registers 0..x (R145). -/
  | ldRegs (x : RegIdx)
  /-- any word matching no row above: any word that matches no pattern, kept whole (R77). -/
  | nopUnmatched (w : Word)
  deriving DecidableEq, Repr

/-- The mnemonic of the instruction's row in spec/opcode_table.json (R81). -/
def Instr.mnemonic : Instr → String
  | .cls => "CLS"
  | .ret => "RET"
  | .jp _ => "JP"
  | .call _ => "CALL"
  | .seImm _ _ => "SE_IMM"
  | .sneImm _ _ => "SNE_IMM"
  | .seReg _ _ => "SE_REG"
  | .ldImm _ _ => "LD_IMM"
  | .addImm _ _ => "ADD_IMM"
  | .ldReg _ _ => "LD_REG"
  | .orReg _ _ => "OR"
  | .andReg _ _ => "AND"
  | .xorReg _ _ => "XOR"
  | .addReg _ _ => "ADD_REG"
  | .sub _ _ => "SUB"
  | .shr _ _ => "SHR"
  | .subn _ _ => "SUBN"
  | .shl _ _ => "SHL"
  | .sneReg _ _ => "SNE_REG"
  | .ldI _ => "LD_I"
  | .jpV0 _ => "JP_V0"
  | .rnd _ _ => "RND"
  | .drw _ _ _ => "DRW"
  | .skp _ => "SKP"
  | .sknp _ => "SKNP"
  | .ldVxDt _ => "LD_VX_DT"
  | .ldVxK _ => "LD_VX_K"
  | .ldDtVx _ => "LD_DT_VX"
  | .ldStVx _ => "LD_ST_VX"
  | .addI _ => "ADD_I"
  | .ldF _ => "LD_F"
  | .ldB _ => "LD_B"
  | .stRegs _ => "ST_REGS"
  | .ldRegs _ => "LD_REGS"
  | .nopUnmatched _ => "NOP_UNMATCHED"

end Sys2Proof
end

