-- ==== Sys2Proof/Machine/State.lean ====
section
/-! DEFINITION. The state of the machine (spec/10_state.md, all of it), the reasons a step can stop, and the state after
`Reset` (R36). -/

namespace Sys2Proof.Machine

/-- Memory `MEM` as the bytes that differ from their reset contents: (address, byte) pairs, addresses strictly rising
and below 4096 (`Memory.wf`). An address without a pair reads as `Memory.unlisted` says (R32, R36, R50). -/
abbrev Memory := List Host.Cell

/-- The framebuffer: 32 rows of 64 one-bit cells, `true` = set, row 0 first, column 0 first (R30). -/
abbrev Framebuffer := Vector (Vector Bool 64) 32

/-- The whole state (R11). There is no other state (R35): no mode, status word, pending interrupt, cause or
return-address register, reservation or buffer. -/
structure State where
  /-- `V[0]` .. `V[15]`; `V[15]` is the flag register (R20, R21). -/
  v : Vector Byte 16
  /-- The address register `I`, all 16 bits kept (R22). -/
  i : Word
  /-- The program counter: between steps the address of the next instruction word (R23, R24). -/
  pc : Word
  /-- The call stack array, outside memory (R25). -/
  stack : Vector Word 16
  /-- The index of the next free stack entry, modulo 16 (R26). -/
  sp : Nibble
  /-- The delay timer (R28). -/
  dt : Byte
  /-- The sound timer (R28). -/
  st : Byte
  /-- The keypad snapshot: `true` = pressed, indexed by the key's hexadecimal value (R29). -/
  key : Vector Bool 16
  /-- The framebuffer (R30). -/
  fb : Framebuffer
  /-- The memory array (R32). -/
  mem : Memory
  /-- The MODEL's own field, no state of the spec: how many random bytes have been drawn, so that each draw takes a
  fresh free value (R34, R214; log entry 1). -/
  draws : Nat
  deriving DecidableEq, Repr

/-- The faults of a step: none. Nobody raises one, since the hardware raises no synchronous exception and every step
completes (spec/60_exceptions.md R200, R201). An empty type is the safe and exact rendering. -/
inductive Fault where
  deriving DecidableEq, Repr

/-- The refusals of a step. -/
inductive Refusal where
  /-- An instruction without a meaning, raised by an arm of `exec` only (safe). No arm of this model raises it: the
  hardware refuses nothing (R200). -/
  | notModelled (mnemonic : String)
  deriving DecidableEq, Repr

/-- The state right after `Reset`, every element as R36 gives it; memory lists nothing, so it reads as R36's table.
`draws` = 0 is the model's own value (log entry 1). -/
def State.reset : State where
  v := Vector.replicate 16 0
  i := 0
  pc := 0x0200
  stack := Vector.replicate 16 0
  sp := 0
  dt := 0
  st := 0
  key := Vector.replicate 16 false
  fb := Vector.replicate 32 (Vector.replicate 64 false)
  mem := []
  draws := 0

end Sys2Proof.Machine
end

