-- ==== Sys2Proof/Machine/Ops.lean ====
section
/-! DEFINITION. The named operations over memory, registers, stack, program counter, framebuffer and keypad that every
meaning is written with. There is no exception-taking operation: the hardware has no exception, no trap entry and no
trap return (spec/60_exceptions.md R200, R205, R206). -/

namespace Sys2Proof.Machine

/-! ### Memory (spec/20_memory.md) -/

/-- The reduction of every address at the memory port: the low 12 bits (R51; decision D1). -/
def memIndex (a : Nat) : Nat := a % 4096

/-- The reset contents of a memory byte: the font at 0x050..0x09F, 0x00 everywhere else (R32, R36). -/
def Memory.unlisted (a : Nat) : Byte :=
  if h : 0x50 ≤ a ∧ a < 0xA0 then Config.font[a - 0x50] else 0x00

/-- The byte at an address already reduced. -/
def Memory.lookup : Memory → Nat → Byte
  | [], a => Memory.unlisted a
  | (b, v) :: m, a => if b = a then v else Memory.lookup m a

/-- The memory without a pair for an address. -/
def Memory.erase : Memory → Nat → Memory
  | [], _ => []
  | (b, v) :: m, a => if b = a then Memory.erase m a else (b, v) :: Memory.erase m a

/-- The memory with one more pair, put before the first pair of a higher address. -/
def Memory.insert : Memory → Nat → Byte → Memory
  | [], a, v => [(a, v)]
  | (b, u) :: m, a, v => if a < b then (a, v) :: (b, u) :: m else (b, u) :: Memory.insert m a v

/-- Writing a byte at an address already reduced. A byte equal to the reset contents is not listed, so that equal
memories are equal data. -/
def Memory.put (m : Memory) (a : Nat) (v : Byte) : Memory :=
  if v = Memory.unlisted a then Memory.erase m a else Memory.insert (Memory.erase m a) a v

/-- `MemRead(a, 1)` (R52). -/
def Memory.read (m : Memory) (a : Nat) : Byte := Memory.lookup m (memIndex a)

/-- `MemWrite(a, 1, v)` (R52). -/
def Memory.write (m : Memory) (a : Nat) (v : Byte) : Memory := Memory.put m (memIndex a) v

/-- Bytes written at ascending addresses from `a`, each reduced on its own (R51, R55). -/
def Memory.writeBytes : Memory → Nat → List Byte → Memory
  | m, _, [] => m
  | m, a, v :: vs => Memory.writeBytes (Memory.write m a v) (a + 1) vs

/-- The canonical form: addresses strictly rising and inside the 4096 bytes, no pair that repeats the reset contents. -/
abbrev Memory.wf (m : Memory) : Prop :=
  m.Pairwise (fun c d => c.1 < d.1) ∧ ∀ c ∈ m, c.1 < 4096 ∧ c.2 ≠ Memory.unlisted c.1

/-- `MemRead(a, 1)` on the state. -/
def State.memRead (s : State) (a : Nat) : Byte := Memory.read s.mem a

/-- `MemRead(a, 2)`, first byte high; only fetch uses it (R53). -/
def State.memRead2 (s : State) (a : Nat) : Word := wordOfBytes (s.memRead a) (s.memRead (a + 1))

/-- The state with another memory. -/
def State.setMem (s : State) (m : Memory) : State := { s with mem := m }

/-- `MemWrite(a + k, 1, vs[k])` for ascending `k`. -/
def State.memWriteBytes (s : State) (a : Nat) (vs : List Byte) : State :=
  s.setMem (Memory.writeBytes s.mem a vs)

/-! ### Registers (R20 to R24, R28) -/

/-- Read of `V[x]` (R20). -/
def State.readV (s : State) (x : RegIdx) : Byte := s.v[x]

/-- Write of `V[x]` (R20): every register is ordinary storage, none is hard-wired. -/
def State.writeV (s : State) (x : RegIdx) (b : Byte) : State := { s with v := s.v.set x b }

/-- The state with all sixteen registers replaced (Fx65). -/
def State.setVs (s : State) (v : Vector Byte 16) : State := { s with v := v }

/-- Write of `I` (R22). -/
def State.setI (s : State) (w : Word) : State := { s with i := w }

/-- Write of `PC` (R23). -/
def State.setPc (s : State) (w : Word) : State := { s with pc := w }

/-- Write of `DT` (R28). -/
def State.setDt (s : State) (b : Byte) : State := { s with dt := b }

/-- Write of `ST` (R28). -/
def State.setSt (s : State) (b : Byte) : State := { s with st := b }

/-! ### Program counter and fetch (R23, R24, R71, R108) -/

/-- The instruction word at `PC` (R53, R71). -/
def State.fetchWord (s : State) : Word := s.memRead2 s.pc.toNat

/-- The advance by 2, modulo 65536, done before the instruction executes (R23, R24, R71). -/
def State.advancePc (s : State) : State := s.setPc (s.pc + 2)

/-- "Skip next instruction": one more instruction word passed over (R108). -/
def State.skip (s : State) : State := s.setPc (s.pc + 2)

/-- The skip taken when the condition holds. -/
def State.skipIf (s : State) (c : Bool) : State := if c then s.skip else s

/-- The rewind of Fx0A, back to the instruction itself (R24, R173). -/
def State.rewindPc (s : State) : State := s.setPc (s.pc - 2)

/-! ### Call stack (R25 to R27) -/

/-- `Push(v)`: store, then increment modulo 16 (R27). -/
def State.push (s : State) (w : Word) : State :=
  { s with stack := s.stack.set s.sp.toFin w, sp := s.sp + 1 }

/-- The stack pointer after `Pop()`: decrement modulo 16 (R27). -/
def State.popSp (s : State) : Nibble := s.sp - 1

/-- The value `Pop()` returns: the entry at the decremented pointer (R27). -/
def State.popValue (s : State) : Word := s.stack[s.popSp.toFin]

/-- The state `Pop()` leaves: only `SP` moves, the entry stays in the array (R27). -/
def State.popped (s : State) : State := { s with sp := s.popSp }

/-! ### Framebuffer (R30, R31) -/

/-- `FB[r][c]`; beyond the grid there is no cell and the answer is clear. -/
def Framebuffer.cell (fb : Framebuffer) (r c : Nat) : Bool :=
  if h : r < 32 ∧ c < 64 then fb[r][c] else false

/-- `FB[r][c] <- FB[r][c] xor 1`; beyond the grid nothing changes (R162). -/
def Framebuffer.flip (fb : Framebuffer) (r c : Nat) : Framebuffer :=
  if h : r < 32 ∧ c < 64 then fb.set r (fb[r].set c (!fb[r][c])) else fb

/-- Every cell clear (R160). -/
def Framebuffer.clear : Framebuffer := Vector.replicate 32 (Vector.replicate 64 false)

/-- The state with another framebuffer. -/
def State.setFb (s : State) (fb : Framebuffer) : State := { s with fb := fb }

/-- A framebuffer and whether a cell has gone from set to clear so far in this draw (R164). -/
abbrev DrawState := Framebuffer × Bool

/-- One pixel of a sprite row `b` at column offset `c`: bit `7 − c` of the row, dropped beyond the grid (R161 to R164). -/
def drawPixel (ox row : Nat) (b : Byte) (d : DrawState) (c : Nat) : DrawState :=
  if b.getLsbD (7 - c) && decide (ox + c ≤ 63) && decide (row ≤ 31) then
    (Framebuffer.flip d.1 row (ox + c), d.2 || Framebuffer.cell d.1 row (ox + c))
  else d

/-- One sprite row: its eight pixels, left to right (R161). -/
def drawRow (ox row : Nat) (b : Byte) (d : DrawState) : DrawState :=
  (List.range 8).foldl (drawPixel ox row b) d

/-- A sprite of `n` rows at origin (column `ox`, row `oy`), row `r` being `rows r` (R161). -/
def drawSprite (fb : Framebuffer) (ox oy n : Nat) (rows : Nat → Byte) : DrawState :=
  (List.range n).foldl (fun d r => drawRow ox (oy + r) (rows r) d) (fb, false)

/-! ### Keypad (R29, R176, R177) -/

/-- `KEY[k]` (R29). -/
def State.keyPressed (s : State) (k : RegIdx) : Bool := s.key[k]

/-- The lowest-numbered pressed key, if any key is pressed (R177; decision D10). -/
def State.lowestPressedKey (s : State) : Option RegIdx :=
  (List.finRange 16).find? fun k => s.keyPressed k

/-! ### The random byte (R34, R214) -/

/-- The byte `RandomByte()` returns at this point: a free value. -/
def State.nextRandomByte (s : State) : Byte := Config.randomByte s.draws

/-- The state once that byte has been consumed. -/
def State.drawn (s : State) : State := { s with draws := s.draws + 1 }

end Sys2Proof.Machine
end

