-- ==== Sys2Proof/Machine/Operands.lean ====
section
/-! DEFINITION. Every operand form: immediates, addresses, the register block, the sprite, the key index
(spec/30_encoding.md R74, spec/42_address_memory.md R146, spec/44_keypad_timers.md R176). -/

namespace Sys2Proof.Machine

/-- `zext_16(nnn)` (R74). -/
def addrImm (nnn : Addr12) : Word := nnn.setWidth 16

/-- `zext_16(V[x])`. -/
def zextByte (b : Byte) : Word := b.setWidth 16

/-- The effective address of byte `k` of an access sequence, before the port's reduction: `I + k` (R146). -/
def State.effAddr (s : State) (k : Nat) : Nat := s.i.toNat + k

/-- The address of the glyph for a digit, all 8 bits used (R142; decision D23). -/
def glyphAddr (b : Byte) : Word := 0x0050 + 5 * zextByte b

/-- Hundreds, tens and ones of a byte, each a binary byte (R143). -/
def decimalDigits (b : Byte) : List Byte :=
  [BitVec.ofNat 8 (b.toNat / 100), BitVec.ofNat 8 (b.toNat / 10 % 10), BitVec.ofNat 8 (b.toNat % 10)]

/-- `V[0]` .. `V[x]`, inclusive, ascending (R144). -/
def State.regBlock (s : State) (x : RegIdx) : List Byte := s.v.toList.take (x.val + 1)

/-- The registers with `V[0]` .. `V[x]` read from ascending addresses at `I` (R145). -/
def State.regsFromMem (s : State) (x : RegIdx) : Vector Byte 16 :=
  Vector.ofFn fun k => if k ≤ x then s.memRead (s.effAddr k.val) else s.readV k

/-- The key a register selects: its low four bits (R176; decision D11). -/
def keyIndex (b : Byte) : RegIdx := (b.setWidth 4).toFin

/-- The number of a key as a register value (R173). -/
def keyByte (k : RegIdx) : Byte := BitVec.ofNat 8 k.val

/-- The origin column of a sprite (R161, R162). -/
def originColumn (b : Byte) : Nat := b.toNat % 64

/-- The origin row of a sprite (R161, R162). -/
def originRow (b : Byte) : Nat := b.toNat % 32

/-- Row `r` of the sprite at `I` (R161, R163). -/
def State.spriteRow (s : State) (r : Nat) : Byte := s.memRead (s.effAddr r)

end Sys2Proof.Machine
end

