-- ==== Sys2Proof/Machine/AddressMemory.lean ====
section
/-! DEFINITION. Address-register and memory instructions (spec/42_address_memory.md). None changes `I` when it uses it
as a base (R146). -/

namespace Sys2Proof.Machine

/-- LD_I (R140). -/
def execLdI (nnn : Addr12) (s : State) : Host.Outcome State Fault Refusal := .next (s.setI (addrImm nnn))

/-- ADD_I (R141): modulo 65536, no mask and no flag. -/
def execAddI (x : RegIdx) (s : State) : Host.Outcome State Fault Refusal :=
  .next (s.setI (s.i + zextByte (s.readV x)))

/-- LD_F (R142). -/
def execLdF (x : RegIdx) (s : State) : Host.Outcome State Fault Refusal :=
  .next (s.setI (glyphAddr (s.readV x)))

/-- LD_B (R143). -/
def execLdB (x : RegIdx) (s : State) : Host.Outcome State Fault Refusal :=
  .next (s.memWriteBytes (s.effAddr 0) (decimalDigits (s.readV x)))

/-- ST_REGS (R144). -/
def execStRegs (x : RegIdx) (s : State) : Host.Outcome State Fault Refusal :=
  .next (s.memWriteBytes (s.effAddr 0) (s.regBlock x))

/-- LD_REGS (R145). -/
def execLdRegs (x : RegIdx) (s : State) : Host.Outcome State Fault Refusal := .next (s.setVs (s.regsFromMem x))

end Sys2Proof.Machine
end

