-- ==== Sys2Proof/Machine/Flags.lean ====
section
/-! DEFINITION. The flag register and every flag computation of the hardware (spec/10_state.md R21,
spec/41_register_alu.md R132 to R134). -/

namespace Sys2Proof.Machine

/-- The index of the flag register `VF` (R21). -/
abbrev flagReg : RegIdx := 15

/-- A flag as the 8-bit value 0x00 or 0x01 (R21). -/
def flagByte (b : Bool) : Byte := if b then 0x01 else 0x00

/-- 8xy4: the carry out of the 8-bit addition (R126, R133). -/
def carryFlag (a b : Byte) : Bool := decide (a.toNat + b.toNat > 255)

/-- 8xy5 and 8xy7: strictly greater, so equal operands give 0 (R127, R129, R134). -/
def greaterFlag (a b : Byte) : Bool := decide (a.toNat > b.toNat)

/-- 8xy6: the bit shifted out, bit 0 (R128). -/
def shrFlag (a : Byte) : Bool := a.getLsbD 0

/-- 8xyE: the bit shifted out, bit 7 (R130). -/
def shlFlag (a : Byte) : Bool := a.getLsbD 7

/-- The flag write and then the result write, in the order of R132: with `x` = 0xF the result survives. The caller
passes values computed from operands sampled before either write. -/
def State.writeFlagThenResult (s : State) (x : RegIdx) (flag : Bool) (result : Byte) : State :=
  (s.writeV flagReg (flagByte flag)).writeV x result

end Sys2Proof.Machine
end

