-- ==== Sys2Proof/Machine/Display.lean ====
section
/-! DEFINITION. Display instructions (spec/43_display.md). -/

namespace Sys2Proof.Machine

/-- CLS (R160). -/
def execCls (s : State) : Host.Outcome State Fault Refusal := .next (s.setFb Framebuffer.clear)

/-- The sprite of a DRW drawn on the framebuffer, and its collision: the origin and the rows are taken from the state
before any write (R132, R161, R164). -/
def State.drawResult (s : State) (x y : RegIdx) (n : Nibble) : DrawState :=
  drawSprite s.fb (originColumn (s.readV x)) (originRow (s.readV y)) n.toNat s.spriteRow

/-- DRW (R161): the flag is always written, after the last pixel. -/
def execDrw (x y : RegIdx) (n : Nibble) (s : State) : Host.Outcome State Fault Refusal :=
  .next ((s.setFb (s.drawResult x y n).1).writeV flagReg (flagByte (s.drawResult x y n).2))

end Sys2Proof.Machine
end

