-- ==== Sys2Proof/Machine/KeypadTimers.lean ====
section
/-! DEFINITION. Keypad and timer instructions (spec/44_keypad_timers.md). -/

namespace Sys2Proof.Machine

/-- SKP (R170). -/
def execSkp (x : RegIdx) (s : State) : Host.Outcome State Fault Refusal :=
  .next (s.skipIf (s.keyPressed (keyIndex (s.readV x))))

/-- SKNP (R171). -/
def execSknp (x : RegIdx) (s : State) : Host.Outcome State Fault Refusal :=
  .next (s.skipIf (!s.keyPressed (keyIndex (s.readV x))))

/-- LD_VX_DT (R172, R178). -/
def execLdVxDt (x : RegIdx) (s : State) : Host.Outcome State Fault Refusal := .next (s.writeV x s.dt)

/-- LD_VX_K (R173): with no key pressed the program counter goes back to the instruction itself and nothing else
changes; the step is complete either way. -/
def execLdVxK (x : RegIdx) (s : State) : Host.Outcome State Fault Refusal :=
  match s.lowestPressedKey with
  | some k => .next (s.writeV x (keyByte k))
  | none => .next s.rewindPc

/-- LD_DT_VX (R174, R178). -/
def execLdDtVx (x : RegIdx) (s : State) : Host.Outcome State Fault Refusal := .next (s.setDt (s.readV x))

/-- LD_ST_VX (R175, R178). -/
def execLdStVx (x : RegIdx) (s : State) : Host.Outcome State Fault Refusal := .next (s.setSt (s.readV x))

end Sys2Proof.Machine
end

