-- ==== Sys2Proof/Machine/RegisterAlu.lean ====
section
/-! DEFINITION. Register load, arithmetic, logic, shift and random instructions (spec/41_register_alu.md). The operands
of a flag-writing instruction are read from the state before the instruction's own writes (R132). -/

namespace Sys2Proof.Machine

/-- LD_IMM (R120). -/
def execLdImm (x : RegIdx) (kk : Byte) (s : State) : Host.Outcome State Fault Refusal := .next (s.writeV x kk)

/-- ADD_IMM (R121): no flag. -/
def execAddImm (x : RegIdx) (kk : Byte) (s : State) : Host.Outcome State Fault Refusal :=
  .next (s.writeV x (s.readV x + kk))

/-- LD_REG (R122). -/
def execLdReg (x y : RegIdx) (s : State) : Host.Outcome State Fault Refusal := .next (s.writeV x (s.readV y))

/-- OR (R123): no flag. -/
def execOrReg (x y : RegIdx) (s : State) : Host.Outcome State Fault Refusal :=
  .next (s.writeV x (s.readV x ||| s.readV y))

/-- AND (R124): no flag. -/
def execAndReg (x y : RegIdx) (s : State) : Host.Outcome State Fault Refusal :=
  .next (s.writeV x (s.readV x &&& s.readV y))

/-- XOR (R125): no flag. -/
def execXorReg (x y : RegIdx) (s : State) : Host.Outcome State Fault Refusal :=
  .next (s.writeV x (s.readV x ^^^ s.readV y))

/-- ADD_REG (R126). -/
def execAddReg (x y : RegIdx) (s : State) : Host.Outcome State Fault Refusal :=
  .next (s.writeFlagThenResult x (carryFlag (s.readV x) (s.readV y)) (s.readV x + s.readV y))

/-- SUB (R127). -/
def execSub (x y : RegIdx) (s : State) : Host.Outcome State Fault Refusal :=
  .next (s.writeFlagThenResult x (greaterFlag (s.readV x) (s.readV y)) (s.readV x - s.readV y))

/-- SHR (R128): the field `y` selects nothing (R79). -/
def execShr (x _y : RegIdx) (s : State) : Host.Outcome State Fault Refusal :=
  .next (s.writeFlagThenResult x (shrFlag (s.readV x)) (s.readV x >>> 1))

/-- SUBN (R129). -/
def execSubn (x y : RegIdx) (s : State) : Host.Outcome State Fault Refusal :=
  .next (s.writeFlagThenResult x (greaterFlag (s.readV y) (s.readV x)) (s.readV y - s.readV x))

/-- SHL (R130): the field `y` selects nothing (R79). -/
def execShl (x _y : RegIdx) (s : State) : Host.Outcome State Fault Refusal :=
  .next (s.writeFlagThenResult x (shlFlag (s.readV x)) (s.readV x <<< 1))

/-- The result of RND for the byte the generator supplied (R131). -/
def maskedRandom (r kk : Byte) : Byte := r &&& kk

/-- RND (R131, R214): one fresh byte is consumed, whatever the mask. -/
def execRnd (x : RegIdx) (kk : Byte) (s : State) : Host.Outcome State Fault Refusal :=
  .next (s.drawn.writeV x (maskedRandom s.nextRandomByte kk))

end Sys2Proof.Machine
end

