-- ==== Sys2Proof/Machine/Step.lean ====
section
/-! DEFINITION. The `Step` operation (spec/30_encoding.md R71). -/

namespace Sys2Proof.Machine

/-- One `Step`: fetch the word at `PC`, advance `PC` by 2, decode, execute (R71). -/
def step (s : State) : Host.Outcome State Fault Refusal :=
  exec (decodeWord s.fetchWord) s.advancePc

/-- The state with the instruction numbered `w` (spec/opcode_table.json) stored at `PC`, high byte first (R53), so that
the next step runs it. It stands for the load of a program from outside (R231; log entry 4). -/
def State.withFetchWord (s : State) (nbits w : Nat) : State :=
  s.memWriteBytes s.pc.toNat [highByte (tableWord nbits w), lowByte (tableWord nbits w)]

end Sys2Proof.Machine
end

