-- ==== Sys2Proof/Machine/Agents.lean ====
section
/-! DEFINITION. The operations of the external agents (spec/00_scope.md R10): `Reset`, `Load`, `TimerTick`, `KeyWrite`,
`FbExport`, `TimerExport`, and the runs they make with `Step` (spec/60_exceptions.md R215). They are state changes
between steps, never part of a step (R63, R203, R235). -/

namespace Sys2Proof.Machine

/-! ### Reset and Load (spec/70_reset_and_hazards.md R230 to R232) -/

/-- The state after `Reset` with another font table (R5, R230; decision D14). With the default table it is
`State.reset` (`resetWith_default`). -/
def resetWith (font : Vector Byte 80) : State :=
  State.reset.setMem (Memory.writeBytes [] 0x50 font.toList)

/-- `Reset` performed on any machine (R230): every state element takes its reset value. Only the count of random bytes
drawn goes on, because the generator is outside the core and is seeded once (R34, R230; log entry 1). -/
def resetMachine (s : State) : State := { State.reset with draws := s.draws }

/-- Why a `Load` fails. It is reported to the host, never to the program (R208). -/
inductive LoadError where
  /-- The image is longer than the 3584 bytes from 0x200 to the end of memory (R231). -/
  | capacity
  deriving DecidableEq, Repr

/-- `Load(bytes)` (R231): the image copied to 0x200, or a failure that changes nothing. -/
def load (bytes : List Byte) (s : State) : Except LoadError State :=
  if bytes.length > 3584 then .error .capacity else .ok (s.memWriteBytes 0x200 bytes)

/-- The machine before its first step: `Reset`, then a `Load` that may be left out or may fail, in which case the reset
state stands (R208, R232). -/
def boot (image : Option (List Byte)) (s : State) : State :=
  match image with
  | none => resetMachine s
  | some bytes =>
    match load bytes (resetMachine s) with
    | .ok t => t
    | .error _ => resetMachine s

/-! ### Timers and sound (R210, R211) -/

/-- One counter at a tick: down by one while positive, never below 0 (R210). -/
def tickCounter (b : Byte) : Byte := if b.toNat > 0 then b - 1 else b

/-- `TimerTick` (R210). -/
def timerTick (s : State) : State := (s.setDt (tickCounter s.dt)).setSt (tickCounter s.st)

/-- `TimerExport`: the two counters (R211). -/
def timerExport (s : State) : Byte × Byte := (s.dt, s.st)

/-- `sound_on = (ST > 0)`, the only audio interface (R211). -/
def soundOn (s : State) : Bool := decide (s.st.toNat > 0)

/-! ### Keypad (R212) -/

/-- `KeyWrite(k, b)`: the flag of one key (R212). -/
def keyWrite (k : RegIdx) (b : Bool) (s : State) : State := { s with key := s.key.set k b }

/-! ### Display export (R31, R213) -/

/-- `FbExport`: the 2048 cells in row-major order, element `r * 64 + c` being cell (row `r`, column `c`), each as one of
the two sentinels (R31, R213; decision D15). -/
def fbExport (cfg : Config.Sentinels) (s : State) : List (BitVec cfg.width) :=
  (List.range 2048).map fun k => if Framebuffer.cell s.fb (k / 64) (k % 64) then cfg.set else cfg.clear

/-! ### Runs (R215) -/

/-- The operations that may follow `Reset` and `Load`, in any order and number (R215). The type has no move for what
R220 forbids: no other write by an external agent, and no `Load` once the run has begun (R231). -/
inductive AgentOp where
  /-- The core, invoked by the cycle driver. -/
  | step
  /-- The cycle driver, at 60 Hz. -/
  | timerTick
  /-- The input collector. -/
  | keyWrite (k : RegIdx) (b : Bool)
  /-- The renderer. -/
  | fbExport
  /-- The driver and the audio collaborator. -/
  | timerExport
  deriving DecidableEq, Repr

/-- The effect of one operation; the two exports change nothing (R211, R213). -/
def AgentOp.apply (op : AgentOp) (s : State) : Host.Outcome State Fault Refusal :=
  match op with
  | .step => Sys2Proof.Machine.step s
  | .timerTick => .next (Sys2Proof.Machine.timerTick s)
  | .keyWrite k b => .next (Sys2Proof.Machine.keyWrite k b s)
  | .fbExport => .next s
  | .timerExport => .next s

/-- What an operation shows its caller. -/
inductive Observation where
  /-- The operation returns nothing. -/
  | silent
  /-- The cells of `FbExport`, in export order, `true` for `SENT_SET`. -/
  | cells (cs : List Bool)
  /-- `DT`, `ST` and the sound signal of `TimerExport`. -/
  | timers (dt st : Byte) (sound : Bool)
  deriving DecidableEq, Repr

/-- The cells of `FbExport` before they are mapped to sentinels (R31). -/
def exportedCells (s : State) : List Bool :=
  (List.range 2048).map fun k => Framebuffer.cell s.fb (k / 64) (k % 64)

/-- What the operation's caller sees, in the state the operation finds (R211, R213). -/
def AgentOp.observe (op : AgentOp) (s : State) : Observation :=
  match op with
  | .step => .silent
  | .timerTick => .silent
  | .keyWrite _ _ => .silent
  | .fbExport => .cells (exportedCells s)
  | .timerExport => .timers (Sys2Proof.Machine.timerExport s).1 (Sys2Proof.Machine.timerExport s).2 (soundOn s)

/-- A sequence of whole operations, one after the other (R215). -/
def runOps : List AgentOp → State → Host.Outcome State Fault Refusal
  | [], s => .next s
  | op :: ops, s =>
    match op.apply s with
    | .next t => runOps ops t
    | .fault r => .fault r
    | .refused r => .refused r

/-- A run: `Reset ; Load(bytes) ; ( Step | TimerTick | KeyWrite | FbExport | TimerExport )*` (R215). -/
structure Run where
  image : Option (List Byte)
  ops : List AgentOp
  deriving DecidableEq, Repr

/-- The end of a run that starts on a machine in any state. -/
def Run.result (r : Run) (s : State) : Host.Outcome State Fault Refusal := runOps r.ops (boot r.image s)

end Sys2Proof.Machine
end

