-- ==== Sys2Proof/Safety.lean ====
section
/-! DEFINITION. The terms claims use: the invariant of the state, the end of a program, and the obligations on programs
of spec/70_reset_and_hazards.md R233, which the hardware does not enforce. -/

namespace Sys2Proof.Machine

/-- The invariant that every operation keeps: memory is in its canonical form. Every other constraint of the spec on the
state (widths, `SP` in [0,16), one bit per cell) is in the field types. -/
abbrev State.Inv (s : State) : Prop := Memory.wf s.mem

/-- `ws` pushed one after the other, the first one first (R27). -/
def State.pushAll (s : State) (ws : List Word) : State := ws.foldl State.push s

/-- The values of `k` pops one after the other, and the state they leave (R27). -/
def State.popAll : Nat → State → List Word × State
  | 0, s => ([], s)
  | k + 1, s => (s.popValue :: (State.popAll k s.popped).1, (State.popAll k s.popped).2)

/-- Instructions executed one after the other by `exec`, whatever words memory holds. -/
def execAll : List Instr → State → Host.Outcome State Fault Refusal
  | [], s => .next s
  | i :: is, s =>
    match exec i s with
    | .next t => execAll is t
    | .fault r => .fault r
    | .refused r => .refused r

/-- "The program has ended": the word at `PC` is a jump to `PC` itself, below 0x1000 (R219; decision D20). -/
def State.ended (s : State) : Bool :=
  decide (s.pc.toNat < 0x1000) && (decodeWord s.fetchWord == .jp (s.pc.setWidth 12))

/-- Whether a sprite of `n` rows at origin (column `ox`, row `oy`) has a set bit for the cell at row `r`, column `c`: the
cell is in the sprite's rectangle and bit `7 − (c − ox)` of row `r − oy` is 1 (R161, R163). It is the pixel-by-pixel
reading of the draw loop. -/
def spriteCovers (ox oy n : Nat) (rows : Nat → Byte) (r c : Nat) : Bool :=
  decide (oy ≤ r ∧ r < oy + n ∧ ox ≤ c ∧ c < ox + 8) && (rows (r - oy)).getLsbD (7 - (c - ox))

/-- The sprite a DRW draws, cell by cell, in the state it draws from. -/
def State.drawCovers (s : State) (x y : RegIdx) (n : Nibble) (r c : Nat) : Bool :=
  spriteCovers ((s.readV x).toNat % 64) ((s.readV y).toNat % 32) n.toNat (fun k => s.memRead (s.effAddr k)) r c

/-- The memory bytes an instruction accesses through `I`, as a count of bytes from `I` (R55). -/
def accessLength : Instr → Nat
  | .drw _ _ n => n.toNat
  | .ldB _ => 3
  | .stRegs x => x.val + 1
  | .ldRegs x => x.val + 1
  | .cls | .ret | .jp _ | .call _ | .seImm _ _ | .sneImm _ _ | .seReg _ _ | .ldImm _ _ | .addImm _ _ => 0
  | .ldReg _ _ | .orReg _ _ | .andReg _ _ | .xorReg _ _ | .addReg _ _ | .sub _ _ | .shr _ _ | .subn _ _ => 0
  | .shl _ _ | .sneReg _ _ | .ldI _ | .jpV0 _ | .rnd _ _ | .skp _ | .sknp _ | .ldVxDt _ | .ldVxK _ => 0
  | .ldDtVx _ | .ldStVx _ | .addI _ | .ldF _ | .nopUnmatched _ => 0

/-- Whether an instruction stores to memory (R50, R55). -/
def storesToMemory : Instr → Bool
  | .ldB _ | .stRegs _ => true
  | .cls | .ret | .jp _ | .call _ | .seImm _ _ | .sneImm _ _ | .seReg _ _ | .ldImm _ _ | .addImm _ _ => false
  | .ldReg _ _ | .orReg _ _ | .andReg _ _ | .xorReg _ _ | .addReg _ _ | .sub _ _ | .shr _ _ | .subn _ _ => false
  | .shl _ _ | .sneReg _ _ | .ldI _ | .jpV0 _ | .rnd _ _ | .drw _ _ _ | .skp _ | .sknp _ | .ldVxDt _ => false
  | .ldVxK _ | .ldDtVx _ | .ldStVx _ | .addI _ | .ldF _ | .ldRegs _ | .nopUnmatched _ => false

/-- The registers a flag-writing arithmetic instruction names as its destination (R233, fourth row). -/
def flagWritingDestination : Instr → Option RegIdx
  | .addReg x _ | .sub x _ | .shr x _ | .subn x _ | .shl x _ => some x
  | .cls | .ret | .jp _ | .call _ | .seImm _ _ | .sneImm _ _ | .seReg _ _ | .ldImm _ _ | .addImm _ _ => none
  | .ldReg _ _ | .orReg _ _ | .andReg _ _ | .xorReg _ _ | .sneReg _ _ | .ldI _ | .jpV0 _ | .rnd _ _ => none
  | .drw _ _ _ | .skp _ | .sknp _ | .ldVxDt _ | .ldVxK _ | .ldDtVx _ | .ldStVx _ | .addI _ | .ldF _ => none
  | .ldB _ | .stRegs _ | .ldRegs _ | .nopUnmatched _ => none

/-- R233, first and second row: the instruction stores no byte in 0x000..0x09F. -/
def State.sparesFontAndReserved (s : State) (i : Instr) : Prop :=
  storesToMemory i = true → ∀ k, k < accessLength i → 0xA0 ≤ memIndex (s.effAddr k)

/-- R233, fourth row: the flag register is not the destination of a flag-writing arithmetic instruction. -/
def sparesFlagReg (i : Instr) : Prop := flagWritingDestination i ≠ some flagReg

/-- R233, fifth row: `I` plus the access length stays within 0x000..0xFFF. -/
def State.staysInMemory (s : State) (i : Instr) : Prop := s.i.toNat + accessLength i ≤ 0x1000

/-- What an instruction does to the call stack (R25). -/
inductive StackUse where
  | pushes
  | pops
  | untouched
  deriving DecidableEq, Repr

/-- 2nnn pushes, 00EE pops, no other instruction touches the stack (R25). -/
def stackUse : Instr → StackUse
  | .call _ => .pushes
  | .ret => .pops
  | .cls | .jp _ | .seImm _ _ | .sneImm _ _ | .seReg _ _ | .ldImm _ _ | .addImm _ _ => .untouched
  | .ldReg _ _ | .orReg _ _ | .andReg _ _ | .xorReg _ _ | .addReg _ _ | .sub _ _ | .shr _ _ => .untouched
  | .subn _ _ | .shl _ _ | .sneReg _ _ | .ldI _ | .jpV0 _ | .rnd _ _ | .drw _ _ _ | .skp _ => .untouched
  | .sknp _ | .ldVxDt _ | .ldVxK _ | .ldDtVx _ | .ldStVx _ | .addI _ | .ldF _ | .ldB _ => .untouched
  | .stRegs _ | .ldRegs _ | .nopUnmatched _ => .untouched

/-- R233, third row, over the instructions executed one after the other: the call depth from `d` stays within 0..16, and
no return comes without a call; `none` once that is broken. -/
def callDepth : List Instr → Nat → Option Nat
  | [], d => some d
  | i :: is, d =>
    match stackUse i with
    | .pushes => if d < 16 then callDepth is (d + 1) else none
    | .pops => if 0 < d then callDepth is (d - 1) else none
    | .untouched => callDepth is d

end Sys2Proof.Machine
end

