-- ==== Sys2Proof/Certificates/Slice0/Obligations.lean ====
section
/-! DEFINITION. The statements for the provers. In a statement about `exec i s`, `s` is the state whose `PC` is already
advanced past the instruction (spec/30_encoding.md R71); `FetchDecodeExecute` carries each one to `step`. A statement of
the form "there is `t` with `exec i s = .next t` and `t = { s with … }`" says that the instruction completes in every
state, what it writes, and that nothing else changes: `{ s with v := t.v }` leaves every field but the registers, all
of memory included, as it was; the model's own count of random bytes drawn (log entry 1) is among these fields. -/

open Sys2Proof Sys2Proof.Machine

/-! ### Reset and loading -/

/-- R36, R230: what `Reset` leaves in every state element, on a machine in any state. The font clause names `Config.font`,
the PRESUMED default table; the last clause alone includes the count of random bytes drawn, the model's own field (log
entry 1). Rests on the spec's own decisions D14, D25 (log entries 2, 13). -/
def Obligations.ResetLeavesTheTableOfR36 : Prop :=
  ∀ s : State,
    (∀ x, (resetMachine s).readV x = 0) ∧ (resetMachine s).i = 0 ∧ (resetMachine s).pc = 0x0200 ∧
    (∀ k, (h : k < 16) → (resetMachine s).stack[k] = 0) ∧ (resetMachine s).sp = 0 ∧
    (resetMachine s).dt = 0 ∧ (resetMachine s).st = 0 ∧
    (∀ k, (resetMachine s).keyPressed k = false) ∧
    (∀ r c, Framebuffer.cell (resetMachine s).fb r c = false) ∧
    (∀ k, (h : k < 80) → (resetMachine s).memRead (0x50 + k) = Config.font[k]) ∧
    (∀ a, a < 4096 → a < 0x50 ∨ 0xA0 ≤ a → (resetMachine s).memRead a = 0) ∧
    resetMachine State.reset = State.reset

/-- R32, R36 with `FONT` as a parameter (decision D14): whatever the 80 font bytes, `Reset` puts them at 0x050..0x09F, 0
everywhere else, and every other element is as in `State.reset`, the model's own count of draws (log entry 1) among
them. Rests on the spec's own decisions D14, D25 (log entries 2, 13). The clause on the canonical form of memory is the
model's own DESIGN CHOICE (log entry 20). -/
def Obligations.ResetWithAnyFontTable : Prop :=
  ∀ font : Vector Byte 80,
    (∀ k, (h : k < 80) → (resetWith font).memRead (0x50 + k) = font[k]) ∧
    (∀ a, a < 4096 → a < 0x50 ∨ 0xA0 ≤ a → (resetWith font).memRead a = 0) ∧
    (resetWith font).Inv ∧ resetWith font = { State.reset with mem := (resetWith font).mem }

/-- R231: `Load` copies the image to 0x200 and changes nothing else, or fails with the capacity error exactly when the
image has more than 3584 bytes. A failing `Load` returns no state, so it changes none. -/
def Obligations.LoadCopiesOrFailsWhole : Prop :=
  ∀ (bytes : List Byte) (s : State),
    (bytes.length > 3584 → load bytes s = .error .capacity) ∧
    (bytes.length ≤ 3584 → ∃ t, load bytes s = .ok t ∧ t = { s with mem := t.mem } ∧
      (∀ k, (h : k < bytes.length) → t.memRead (0x200 + k) = bytes[k]) ∧
      (∀ a, a < 4096 → a < 0x200 ∨ 0x200 + bytes.length ≤ a → t.memRead a = s.memRead a))

/-- R208, R232: a `Load` that is left out or fails leaves the machine in its reset state, and after one that succeeds
the first word fetched is the first two bytes of the image, big-endian. -/
def Obligations.BootFetchesTheImageFirst : Prop :=
  ∀ s : State,
    boot none s = resetMachine s ∧
    (∀ bytes, bytes.length > 3584 → boot (some bytes) s = resetMachine s) ∧
    (∀ hi lo rest, (hi :: lo :: rest).length ≤ 3584 →
      (boot (some (hi :: lo :: rest)) s).fetchWord = wordOfBytes hi lo)

/-! ### Fetch, decode, step -/

/-- R71: when the two bytes at `PC` decode to the instruction `i`, one step is `i` executed on the state whose `PC` is
2 further, modulo 65536, and nothing else is done. Rests on the spec's own decisions D1, D3 (log entry 5). -/
def Obligations.FetchDecodeExecute : Prop :=
  ∀ (s : State) (i : Instr),
    decode [s.memRead s.pc.toNat, s.memRead (s.pc.toNat + 1)] = .ok (i, []) →
    step s = exec i { s with pc := BitVec.ofNat 16 ((s.pc.toNat + 2) % 65536) }

/-- R51, R53: the fetched word is the byte at `PC` mod 4096, high, and the byte at (`PC` + 1) mod 4096, low; two
values of `PC` that agree modulo 4096 fetch the same word, and the register keeps its 16 bits. Rests on the spec's own
decisions D1, D3 (log entry 5). -/
def Obligations.FetchReducesTheProgramCounter : Prop :=
  ∀ s : State,
    s.fetchWord.toNat = (s.memRead (s.pc.toNat % 4096)).toNat * 256 + (s.memRead ((s.pc.toNat + 1) % 4096)).toNat ∧
    (∀ w : Word, w.toNat % 4096 = s.pc.toNat % 4096 →
      (s.setPc w).fetchWord = s.fetchWord ∧ (s.setPc w).pc = w)

/-- Words written out from the encodings of R73 and R75, one or more for each format and family, and what they stand
for. Rests on the spec's own decision D9 (log entry 9). In the last clause, that the unmatched term keeps its word is the
model's own DESIGN CHOICE (log entry 19), where R77 gives it no operands. -/
def Obligations.WrittenOutWordsDecode : Prop :=
  decodeWord 0b0000000011100000 = .cls ∧
  decodeWord 0b0000000011101110 = .ret ∧
  decodeWord 0b0010001100000001 = .call 0x301 ∧
  decodeWord 0b0011101001010101 = .seImm 0xA 0x55 ∧
  decodeWord 0b0101000100100000 = .seReg 0x1 0x2 ∧
  decodeWord 0b1000000111110100 = .addReg 0x1 0xF ∧
  decodeWord 0b1000001100101110 = .shl 0x3 0x2 ∧
  decodeWord 0b1100000100001111 = .rnd 0x1 0x0F ∧
  decodeWord 0b1101000000010101 = .drw 0x0 0x1 0x5 ∧
  decodeWord 0b1110010110100001 = .sknp 0x5 ∧
  decodeWord 0b1111001001100101 = .ldRegs 0x2 ∧
  decodeWord 0b0101000100100001 = .nopUnmatched 0x5121

/-- The encoder and the decoder agree (R70, R72, R73): decoding the bytes of any well-formed instruction gives it back
with every operand, and leaves the bytes after it. Rests on the spec's own decision D9 (log entry 9). That an
unmatched term keeps its word is the model's own DESIGN CHOICE (log entry 19). -/
def Obligations.DecodeOfEncodeIsIdentity : Prop :=
  ∀ (i : Instr) (rest : List Byte), i.wf = true → decode (encode i ++ rest) = .ok (i, rest)

/-- No bit of a word is dropped (R72, R77): every word decodes, to a well-formed instruction that encodes to it. Rests
on the spec's own decision D9 (log entry 9). That an unmatched word is kept is the model's own DESIGN CHOICE (log
entry 19), where R77 uses no field of it. -/
def Obligations.EncodeOfDecodeIsIdentity : Prop :=
  ∀ w : Word, (decodeWord w).wf = true ∧ encodeWord (decodeWord w) = w

/-- R75: the table has 34 rows, no word matches two of them, and the decoder gives a word the instruction whose row's
mask and match select it (the fallback's where none does). Rests on the spec's own decision D9 (log entry 9). -/
def Obligations.DecoderFollowsTheOpcodeTable : Prop :=
  opcodeRows.length = 34 ∧
  opcodeRows.Pairwise (fun r q => ∀ w, ¬(r.selects w = true ∧ q.selects w = true)) ∧
  ∀ w : Word, (decodeWord w).mnemonic = tableMnemonic w

/-- R77: an unmatched word executes as a no-operation; the step as a whole changes `PC` only. Rests on the spec's own
decisions D3, D9 (log entries 5, 9). -/
def Obligations.UnmatchedWordIsANoOperation : Prop :=
  (∀ (w : Word) (s : State), exec (.nopUnmatched w) s = .next s) ∧
  ∀ s : State, isUnmatched s.fetchWord = true →
    step s = .next { s with pc := BitVec.ofNat 16 ((s.pc.toNat + 2) % 65536) }

/-! ### Control flow -/

/-- R100: RET decrements `SP` modulo 16 and jumps to the entry there; the array and everything else is unchanged.
Rests on the spec's own decision D7 (log entry 6). -/
def Obligations.ReturnPopsIntoProgramCounter : Prop :=
  ∀ s : State, ∃ t, exec .ret s = .next t ∧ t = { s with sp := t.sp, pc := t.pc } ∧
    t.sp.toNat = (s.sp.toNat + 15) % 16 ∧ t.pc = s.stack[t.sp.toFin]

/-- R101: JP writes the zero-extended `nnn` to `PC` and nothing else. -/
def Obligations.JumpWritesItsTarget : Prop :=
  ∀ (nnn : Addr12) (s : State), ∃ t, exec (.jp nnn) s = .next t ∧ t = { s with pc := t.pc } ∧ t.pc.toNat = nnn.toNat

/-- R107: JP_V0 writes the unmasked sum of `V[0]` and `nnn` to `PC` and nothing else. Rests on the spec's own decision
D4 (log entry 5). -/
def Obligations.JumpWithOffsetAddsRegisterZero : Prop :=
  ∀ (nnn : Addr12) (s : State), ∃ t, exec (.jpV0 nnn) s = .next t ∧ t = { s with pc := t.pc } ∧
    t.pc.toNat = (s.readV 0).toNat + nnn.toNat

/-- R102: CALL stores the post-advance `PC` at `STACK[SP]`, increments `SP` modulo 16 and jumps to `nnn`. Rests on the
spec's own decision D7 (log entry 6). -/
def Obligations.CallPushesTheReturnAddress : Prop :=
  ∀ (nnn : Addr12) (s : State), ∃ t, exec (.call nnn) s = .next t ∧
    t = { s with stack := t.stack, sp := t.sp, pc := t.pc } ∧
    t.stack[s.sp.toFin] = s.pc ∧
    (∀ k, (h : k < 16) → k ≠ s.sp.toNat → t.stack[k] = s.stack[k]) ∧
    t.sp.toNat = (s.sp.toNat + 1) % 16 ∧ t.pc.toNat = nnn.toNat

/-- The source's property S3: a CALL, then any change of the rest of the state, then RET restores `PC` to the address
after the CALL and `SP` to its value before it (R102, R100). Rests on the spec's own decision D7 (log entry 6). -/
def Obligations.CallThenReturnComesBack : Prop :=
  ∀ (nnn : Addr12) (s : State), ∃ t, exec (.call nnn) s = .next t ∧
    ∀ u : State, u.stack = t.stack → u.sp = t.sp →
      ∃ r, exec .ret u = .next r ∧ r = { u with sp := s.sp, pc := s.pc }

/-- R27: `Push` stores, then increments modulo 16; `Pop` decrements, then loads; up to sixteen pushed values come back
in reverse order and `SP` with them; seventeen pushes from `SP` = 0 leave the seventeenth value in entry 0, where the
first was; a pop at `SP` = 0 takes entry 15. Rests on the spec's own decision D7 (log entry 6). -/
def Obligations.StackIsLastInFirstOut : Prop :=
  (∀ (s : State) (w : Word),
    (s.push w).stack[s.sp.toFin] = w ∧
    (∀ k, (h : k < 16) → k ≠ s.sp.toNat → (s.push w).stack[k] = s.stack[k]) ∧
    (s.push w).sp.toNat = (s.sp.toNat + 1) % 16 ∧
    s.popSp.toNat = (s.sp.toNat + 15) % 16 ∧ s.popValue = s.stack[s.popSp.toFin] ∧
    s.popped = { s with sp := s.popSp }) ∧
  (∀ (s : State) (ws : List Word), ws.length ≤ 16 →
    (State.popAll ws.length (s.pushAll ws)).1 = ws.reverse ∧
    (State.popAll ws.length (s.pushAll ws)).2 = { s with stack := (s.pushAll ws).stack }) ∧
  (∀ (s : State) (ws : List Word) (w : Word), s.sp = 0 → ws.length = 16 →
    (s.pushAll (ws ++ [w])).stack[0] = w) ∧
  (∀ s : State, s.sp = 0 → s.popSp = 15 ∧ s.popValue = s.stack[15])

/-- R26: `SP` is the number of calls not yet returned from, modulo 16, along any sequence of instructions that keeps
the call depth within 0..16 (R233, third row). Rests on the spec's own decision D7 (log entry 6). -/
def Obligations.StackPointerCountsOutstandingCalls : Prop :=
  ∀ (is : List Instr) (s : State) (d d' : Nat), s.sp.toNat = d % 16 → callDepth is d = some d' →
    ∃ t, execAll is s = .next t ∧ t.sp.toNat = d' % 16

/-- R103 to R106: the compare-skips advance `PC` by 2 more, modulo 65536, when their condition holds (R108), and
change nothing else; a register compared with itself is equal. Rests on the spec's own decisions D3, D26 (log entry
5). -/
def Obligations.CompareSkips : Prop :=
  ∀ (x y : RegIdx) (kk : Byte) (s : State),
    (∃ t, exec (.seImm x kk) s = .next t ∧ t = { s with pc := t.pc } ∧
      t.pc.toNat = if (s.readV x).toNat = kk.toNat then (s.pc.toNat + 2) % 65536 else s.pc.toNat) ∧
    (∃ t, exec (.sneImm x kk) s = .next t ∧ t = { s with pc := t.pc } ∧
      t.pc.toNat = if (s.readV x).toNat = kk.toNat then s.pc.toNat else (s.pc.toNat + 2) % 65536) ∧
    (∃ t, exec (.seReg x y) s = .next t ∧ t = { s with pc := t.pc } ∧
      t.pc.toNat = if (s.readV x).toNat = (s.readV y).toNat then (s.pc.toNat + 2) % 65536 else s.pc.toNat) ∧
    (∃ t, exec (.sneReg x y) s = .next t ∧ t = { s with pc := t.pc } ∧
      t.pc.toNat = if (s.readV x).toNat = (s.readV y).toNat then s.pc.toNat else (s.pc.toNat + 2) % 65536)

/-! ### Register load, arithmetic, logic, shift, random -/

/-- R120, R121, R122: LD_IMM, ADD_IMM and LD_REG write `V[x]` only, also when `x` is 0xF; ADD_IMM wraps modulo 256 and
writes no flag. -/
def Obligations.LoadsAndImmediateAddWriteOneRegister : Prop :=
  ∀ (x y : RegIdx) (kk : Byte) (s : State),
    (∃ t, exec (.ldImm x kk) s = .next t ∧ t = { s with v := t.v } ∧ t.readV x = kk ∧
      ∀ j, j ≠ x → t.readV j = s.readV j) ∧
    (∃ t, exec (.addImm x kk) s = .next t ∧ t = { s with v := t.v } ∧
      (t.readV x).toNat = ((s.readV x).toNat + kk.toNat) % 256 ∧ ∀ j, j ≠ x → t.readV j = s.readV j) ∧
    (∃ t, exec (.ldReg x y) s = .next t ∧ t = { s with v := t.v } ∧ t.readV x = s.readV y ∧
      ∀ j, j ≠ x → t.readV j = s.readV j)

/-- R123, R124, R125: OR, AND and XOR combine the two registers bit by bit into `V[x]` and write nothing else, no flag in
particular. -/
def Obligations.LogicInstructionsAreBitwise : Prop :=
  ∀ (x y : RegIdx) (s : State),
    (∃ t, exec (.orReg x y) s = .next t ∧ t = { s with v := t.v } ∧
      (∀ b, (t.readV x).getLsbD b = ((s.readV x).getLsbD b || (s.readV y).getLsbD b)) ∧
      ∀ j, j ≠ x → t.readV j = s.readV j) ∧
    (∃ t, exec (.andReg x y) s = .next t ∧ t = { s with v := t.v } ∧
      (∀ b, (t.readV x).getLsbD b = ((s.readV x).getLsbD b && (s.readV y).getLsbD b)) ∧
      ∀ j, j ≠ x → t.readV j = s.readV j) ∧
    (∃ t, exec (.xorReg x y) s = .next t ∧ t = { s with v := t.v } ∧
      (∀ b, (t.readV x).getLsbD b = ((s.readV x).getLsbD b ^^ (s.readV y).getLsbD b)) ∧
      ∀ j, j ≠ x → t.readV j = s.readV j)

/-- R126 with R132: ADD_REG for all operand values and all `x`, `y`, the flag register among them; with `x` = 0xF the
sum stands in `VF`. Rests on the spec's own decision D8 (log entry 8). -/
def Obligations.AddSetsCarryFlag : Prop :=
  ∀ (x y : RegIdx) (s : State), ∃ t, exec (.addReg x y) s = .next t ∧ t = { s with v := t.v } ∧
    (t.readV x).toNat = ((s.readV x).toNat + (s.readV y).toNat) % 256 ∧
    (x ≠ 15 → (t.readV 15).toNat = if (s.readV x).toNat + (s.readV y).toNat > 255 then 1 else 0) ∧
    ∀ j, j ≠ x → j ≠ 15 → t.readV j = s.readV j

/-- R127, R129 with R132 and R134: SUB and SUBN; the flag is 1 exactly when the first operand of the difference is
strictly greater, so equal operands give 0; with `x` = 0xF the difference stands in `VF`. Rests on the spec's own
decision D8 (log entry 8). -/
def Obligations.SubtractionsSetStrictFlag : Prop :=
  ∀ (x y : RegIdx) (s : State),
    (∃ t, exec (.sub x y) s = .next t ∧ t = { s with v := t.v } ∧
      ((t.readV x).toNat : Int) = ((s.readV x).toNat - (s.readV y).toNat : Int) % 256 ∧
      (x ≠ 15 → (t.readV 15).toNat = if (s.readV x).toNat > (s.readV y).toNat then 1 else 0) ∧
      ∀ j, j ≠ x → j ≠ 15 → t.readV j = s.readV j) ∧
    (∃ t, exec (.subn x y) s = .next t ∧ t = { s with v := t.v } ∧
      ((t.readV x).toNat : Int) = ((s.readV y).toNat - (s.readV x).toNat : Int) % 256 ∧
      (x ≠ 15 → (t.readV 15).toNat = if (s.readV y).toNat > (s.readV x).toNat then 1 else 0) ∧
      ∀ j, j ≠ x → j ≠ 15 → t.readV j = s.readV j)

/-- R128, R130 with R132 and R79: SHR halves `V[x]` and puts its bit 0 in the flag, SHL doubles it modulo 256 and puts
its bit 7 there, whatever `y` is; with `x` = 0xF the shifted value stands in `VF`. Rests on the spec's own decision D8
(log entry 8). -/
def Obligations.ShiftsKeepTheBitShiftedOut : Prop :=
  ∀ (x y : RegIdx) (s : State),
    (∃ t, exec (.shr x y) s = .next t ∧ t = { s with v := t.v } ∧
      (t.readV x).toNat = (s.readV x).toNat / 2 ∧ (x ≠ 15 → (t.readV 15).toNat = (s.readV x).toNat % 2) ∧
      ∀ j, j ≠ x → j ≠ 15 → t.readV j = s.readV j) ∧
    (∃ t, exec (.shl x y) s = .next t ∧ t = { s with v := t.v } ∧
      (t.readV x).toNat = 2 * (s.readV x).toNat % 256 ∧ (x ≠ 15 → (t.readV 15).toNat = (s.readV x).toNat / 128) ∧
      ∀ j, j ≠ x → j ≠ 15 → t.readV j = s.readV j)

/-- R131, R214: RND writes the masked random byte to `V[x]` only: every bit that is 0 in `kk` is 0 afterwards and the
result is at most `kk`. The byte is the free value of the draw, of which nothing is assumed; each RND counts one draw
and no other instruction does (the count is the model's own field, log entry 1), so each execution has a fresh byte.
Rests on the spec's own decision D16 (log entry 1). -/
def Obligations.RandomIsMaskedAndDrawnOnce : Prop :=
  (∀ (x : RegIdx) (kk : Byte) (s : State), ∃ t, exec (.rnd x kk) s = .next t ∧
    t = { s with v := t.v, draws := s.draws + 1 } ∧
    (∀ b, (t.readV x).getLsbD b = ((Config.randomByte s.draws).getLsbD b && kk.getLsbD b)) ∧
    (t.readV x).toNat ≤ kk.toNat ∧ ∀ j, j ≠ x → t.readV j = s.readV j) ∧
  ∀ (i : Instr) (s t : State), exec i s = .next t → (∀ x kk, i ≠ .rnd x kk) → t.draws = s.draws

/-- R21: a flag write stores 0x00 or 0x01. Every flag-writing arithmetic instruction that does not name the flag
register as its destination (R233, fourth row), and every DRW, leaves one of the two in `VF`. Rests on the spec's own
decision D8 (log entry 8). -/
def Obligations.FlagRegisterHoldsZeroOrOne : Prop :=
  ∀ (i : Instr) (s t : State), exec i s = .next t → sparesFlagReg i →
    ((∃ x, flagWritingDestination i = some x) ∨ ∃ x y n, i = .drw x y n) →
    t.readV flagReg = 0x00 ∨ t.readV flagReg = 0x01

/-! ### Address register and memory -/

/-- R140, R141, R142: LD_I, ADD_I and LD_F write `I` only: `nnn`, the sum modulo 65536, and 0x050 + 5 × `V[x]` with
all 8 bits of `V[x]`. Rests on the spec's own decisions D2, D23 (log entries 5, 12). -/
def Obligations.AddressRegisterWrites : Prop :=
  ∀ (x : RegIdx) (nnn : Addr12) (s : State),
    (∃ t, exec (.ldI nnn) s = .next t ∧ t = { s with i := t.i } ∧ t.i.toNat = nnn.toNat) ∧
    (∃ t, exec (.addI x) s = .next t ∧ t = { s with i := t.i } ∧
      t.i.toNat = (s.i.toNat + (s.readV x).toNat) % 65536) ∧
    (∃ t, exec (.ldF x) s = .next t ∧ t = { s with i := t.i } ∧ t.i.toNat = 0x50 + 5 * (s.readV x).toNat)

/-- R143: LD_B stores hundreds, tens and ones at `I`, `I` + 1, `I` + 2, each address reduced modulo 4096; every other
byte of memory and every other element is unchanged. Rests on the spec's own decisions D1, D12 (log entries 5, 12). -/
def Obligations.DecimalDigitsAreStored : Prop :=
  ∀ (x : RegIdx) (s : State), ∃ t, exec (.ldB x) s = .next t ∧ t = { s with mem := t.mem } ∧
    (t.memRead (s.effAddr 0)).toNat = (s.readV x).toNat / 100 ∧
    (t.memRead (s.effAddr 1)).toNat = (s.readV x).toNat / 10 % 10 ∧
    (t.memRead (s.effAddr 2)).toNat = (s.readV x).toNat % 10 ∧
    ∀ a, (∀ k, k < 3 → a % 4096 ≠ s.effAddr k % 4096) → t.memRead a = s.memRead a

/-- R144: ST_REGS stores `V[0]` .. `V[x]` at `I` .. `I + x`, each address reduced modulo 4096; every other byte of
memory and every other element, `I` among them, is unchanged. Rests on the spec's own decisions D1, D12 (log entries
5, 12). -/
def Obligations.RegistersAreStored : Prop :=
  ∀ (x : RegIdx) (s : State), ∃ t, exec (.stRegs x) s = .next t ∧ t = { s with mem := t.mem } ∧
    (∀ k : RegIdx, k ≤ x → t.memRead (s.effAddr k.val) = s.readV k) ∧
    ∀ a, (∀ k : RegIdx, k ≤ x → a % 4096 ≠ s.effAddr k.val % 4096) → t.memRead a = s.memRead a

/-- R145: LD_REGS loads `V[0]` .. `V[x]` from `I` .. `I + x`; registers above `x`, memory, `I` and every other element
are unchanged. Rests on the spec's own decisions D1, D12 (log entries 5, 12). -/
def Obligations.RegistersAreLoaded : Prop :=
  ∀ (x : RegIdx) (s : State), ∃ t, exec (.ldRegs x) s = .next t ∧ t = { s with v := t.v } ∧
    (∀ k : RegIdx, k ≤ x → t.readV k = s.memRead (s.effAddr k.val)) ∧
    ∀ k : RegIdx, x < k → t.readV k = s.readV k

/-- Stored registers come back: after ST_REGS, any change of the registers, and LD_REGS with the same `x` and `I`,
registers 0 to `x` hold what was stored, also when the block wraps past 0xFFF (R144, R145, R146). Rests on the spec's
own decisions D1, D12 (log entries 5, 12). -/
def Obligations.StoreThenLoadBringsRegistersBack : Prop :=
  ∀ (x : RegIdx) (s : State), ∃ t, exec (.stRegs x) s = .next t ∧
    ∀ v : Vector Byte 16, ∃ u, exec (.ldRegs x) { t with v := v } = .next u ∧
      (∀ k : RegIdx, k ≤ x → u.readV k = s.readV k) ∧ ∀ k : RegIdx, x < k → u.readV k = v[k]

/-- R61: a store is seen by the very next fetch. When ST_REGS stores two registers over the bytes at `PC`, the next
step executes the instruction those two registers encode. Rests on the spec's own decision D1 (log entry 5). -/
def Obligations.StoredInstructionRunsNext : Prop :=
  ∀ (x : RegIdx) (s : State), 1 ≤ x.val → s.i.toNat % 4096 = s.pc.toNat % 4096 →
    ∃ t, exec (.stRegs x) s = .next t ∧
      step t = exec (decodeWord (wordOfBytes (s.readV 0) (s.readV 1))) { t with pc := t.pc + 2 }

/-- R52, R51: what a byte write leaves, at every address: the written byte where the address agrees modulo 4096, the
old byte everywhere else. Rests on the spec's own decision D1 (log entry 5). -/
def Obligations.MemoryReadsTheLastWrite : Prop :=
  ∀ (m : Memory) (a b : Nat) (v : Byte),
    Memory.read (Memory.write m a v) b = if b % 4096 = a % 4096 then v else Memory.read m b

/-- Equal memories are equal data: two canonical memories whose 4096 bytes agree are the same list. The canonical form
of memory is the model's own DESIGN CHOICE (log entry 20). -/
def Obligations.CanonicalMemoriesWithEqualBytesAreEqual : Prop :=
  ∀ m m' : Memory, Memory.wf m → Memory.wf m' → (∀ a, a < 4096 → Memory.read m a = Memory.read m' a) → m = m'

/-! ### Display -/

/-- R160 with R213 and R31: CLS clears every cell and changes nothing else, and the export then yields 2048 times the
clear sentinel, whatever the two sentinels are (the source's property S2). -/
def Obligations.ClearEmptiesTheFramebuffer : Prop :=
  ∀ s : State, ∃ t, exec .cls s = .next t ∧ t = { s with fb := t.fb } ∧
    (∀ r c, r < 32 → c < 64 → Framebuffer.cell t.fb r c = false) ∧
    ∀ cfg : Config.Sentinels, fbExport cfg t = List.replicate 2048 cfg.clear

/-- R161 to R164: DRW, cell by cell. A cell flips exactly when the sprite, with its origin reduced modulo 64 and 32,
has a set bit for it (bit 7 leftmost, rows downward, pixels beyond the grid dropped); `VF` is 1 exactly when a cell
that was set is under a set bit; no other register and nothing else changes. The origin is taken from the values
before the flag write, for `x` or `y` = 0xF too (R132). Rests on the spec's own decisions D1, D5, D6, D8 (log entries
5, 7, 8). -/
def Obligations.DrawFlipsTheCoveredCells : Prop :=
  ∀ (x y : RegIdx) (n : Nibble) (s : State), ∃ t, exec (.drw x y n) s = .next t ∧
    t = { s with v := t.v, fb := t.fb } ∧
    (∀ r c, r < 32 → c < 64 →
      Framebuffer.cell t.fb r c = (Framebuffer.cell s.fb r c ^^ s.drawCovers x y n r c)) ∧
    ((∃ r c, r < 32 ∧ c < 64 ∧ s.drawCovers x y n r c = true ∧ Framebuffer.cell s.fb r c = true) →
      t.readV 15 = 1) ∧
    ((∀ r c, r < 32 → c < 64 → s.drawCovers x y n r c = true → Framebuffer.cell s.fb r c = false) →
      t.readV 15 = 0) ∧
    ∀ j, j ≠ 15 → t.readV j = s.readV j

/-- Drawing the same sprite twice at the same origin restores the framebuffer, and one of the two draws reports a
collision exactly when the sprite has an unclipped set bit (R161; where a covered cell was set the first draw reports
it, where it was clear the second does). The origin is the same in both draws unless `x` or `y` is 0xF and the flag
write moved it. Rests on the spec's own decisions D5, D8 (log entries 7, 8). -/
def Obligations.DrawTwiceRestoresTheFramebuffer : Prop :=
  ∀ (x y : RegIdx) (n : Nibble) (s t : State), exec (.drw x y n) s = .next t →
    originColumn (t.readV x) = originColumn (s.readV x) → originRow (t.readV y) = originRow (s.readV y) →
    ∃ u, exec (.drw x y n) t = .next u ∧ u.fb = s.fb ∧
      ((∃ r c, r < 32 ∧ c < 64 ∧ s.drawCovers x y n r c = true) ↔ t.readV 15 = 1 ∨ u.readV 15 = 1)

/-- The source's property S5: an 8-pixel, 1-row sprite with all bits set, drawn where the eight cells are on the grid
and clear, reports no collision; drawn again it reports one and leaves the framebuffer as it was. Rests on the spec's
own decision D5 (log entry 7). -/
def Obligations.SelfCancellingDraw : Prop :=
  ∀ (x y : RegIdx) (s : State), x ≠ 15 → y ≠ 15 → s.memRead (s.effAddr 0) = 0xFF →
    (s.readV x).toNat % 64 ≤ 56 →
    (∀ c, c < 8 → Framebuffer.cell s.fb ((s.readV y).toNat % 32) ((s.readV x).toNat % 64 + c) = false) →
    ∃ t u, exec (.drw x y 1) s = .next t ∧ t.readV 15 = 0 ∧
      exec (.drw x y 1) t = .next u ∧ u.readV 15 = 1 ∧ u.fb = s.fb

/-! ### Keypad and timers -/

/-- R170, R171 with R176: the key skips test key `V[x]` mod 16, advance `PC` by 2 more when their condition holds, and
change nothing else. Rests on the spec's own decisions D3, D11, D26 (log entries 5, 10). -/
def Obligations.SkipsOnAKey : Prop :=
  ∀ (x k : RegIdx) (s : State), k.val = (s.readV x).toNat % 16 →
    (∃ t, exec (.skp x) s = .next t ∧ t = { s with pc := t.pc } ∧
      t.pc.toNat = if s.keyPressed k = true then (s.pc.toNat + 2) % 65536 else s.pc.toNat) ∧
    (∃ t, exec (.sknp x) s = .next t ∧ t = { s with pc := t.pc } ∧
      t.pc.toNat = if s.keyPressed k = true then s.pc.toNat else (s.pc.toNat + 2) % 65536)

/-- R172, R174, R175 with R178: Fx07 copies `DT` to `V[x]`, Fx15 copies `V[x]` to `DT`, Fx18 copies `V[x]` to `ST`,
and nothing else changes. Rests on the spec's own decision D17 (log entry 11). -/
def Obligations.TimerInstructionsMoveOneByte : Prop :=
  ∀ (x : RegIdx) (s : State),
    (∃ t, exec (.ldVxDt x) s = .next t ∧ t = { s with v := t.v } ∧ t.readV x = s.dt ∧
      ∀ j, j ≠ x → t.readV j = s.readV j) ∧
    exec (.ldDtVx x) s = .next { s with dt := s.readV x } ∧
    exec (.ldStVx x) s = .next { s with st := s.readV x }

/-- R173 with R177: with a key pressed, LD_VX_K puts the lowest-numbered pressed key in `V[x]` and changes nothing
else; with none pressed it puts `PC` back by 2, modulo 65536, and changes nothing else. Rests on the spec's own
decisions D3, D10 (log entries 5, 10). -/
def Obligations.KeyReadTakesTheLowestKey : Prop :=
  ∀ (x : RegIdx) (s : State),
    (∀ k : RegIdx, s.keyPressed k = true → (∀ j, j < k → s.keyPressed j = false) →
      ∃ t, exec (.ldVxK x) s = .next t ∧ t = { s with v := t.v } ∧ (t.readV x).toNat = k.val ∧
        ∀ j, j ≠ x → t.readV j = s.readV j) ∧
    ((∀ k, s.keyPressed k = false) →
      ∃ t, exec (.ldVxK x) s = .next t ∧ t = { s with pc := t.pc } ∧
        t.pc.toNat = (s.pc.toNat + 65534) % 65536)

/-- The source's property S6 (R173): while no key is pressed, any number of steps at a blocking key read leaves the
whole state as it was; on the first step with a key pressed the program counter advances, once. Rests on the spec's
own decisions D3, D10 (log entries 5, 10). -/
def Obligations.BlockingKeyReadWaits : Prop :=
  ∀ (x : RegIdx) (s : State), decodeWord s.fetchWord = .ldVxK x →
    ((∀ k, s.keyPressed k = false) → ∀ n, Host.Core.run Sys2Proof.core n s = .next s) ∧
    (∀ k : RegIdx, s.keyPressed k = true → (∀ j, j < k → s.keyPressed j = false) →
      ∃ t, step s = .next t ∧ t.pc.toNat = (s.pc.toNat + 2) % 65536 ∧ (t.readV x).toNat = k.val)

/-- R210: a tick lowers each positive counter by one, leaves a 0 alone, and changes nothing else; `n` ticks lower a
counter by `n`, stopping at 0; no step but an Fx15 changes `DT` and no step but an Fx18 changes `ST`, so no step
counts down. Rests on the spec's own decision D17 (log entry 11). The last clause is not R210's: which instruction
writes which timer is that decision. -/
def Obligations.TicksCountDownToZero : Prop :=
  (∀ s : State, timerTick s = { s with dt := (timerTick s).dt, st := (timerTick s).st } ∧
    (timerTick s).dt.toNat = (if s.dt.toNat > 0 then s.dt.toNat - 1 else 0) ∧
    (timerTick s).st.toNat = (if s.st.toNat > 0 then s.st.toNat - 1 else 0)) ∧
  (∀ (n : Nat) (s : State), ∃ t, runOps (List.replicate n AgentOp.timerTick) s = .next t ∧
    t.dt.toNat = s.dt.toNat - n ∧ t.st.toNat = s.st.toNat - n) ∧
  ∀ s t : State, step s = .next t →
    ((∀ x, decodeWord s.fetchWord ≠ .ldDtVx x) → t.dt = s.dt) ∧
    ((∀ x, decodeWord s.fetchWord ≠ .ldStVx x) → t.st = s.st)

/-- R212: `KeyWrite` sets the flag of one key to the given value and changes nothing else, whatever keys are pressed; the
core never writes a flag, so a flag stays until the next `KeyWrite` of its key. -/
def Obligations.KeyWriteSetsOneKey : Prop :=
  (∀ (k : RegIdx) (b : Bool) (s : State),
    keyWrite k b s = { s with key := (keyWrite k b s).key } ∧
    ∀ j, (keyWrite k b s).keyPressed j = if j = k then b else s.keyPressed j) ∧
  ∀ s t : State, step s = .next t → ∀ j, t.keyPressed j = s.keyPressed j

/-- R213 with R31: the framebuffer export has 2048 elements, element `r * 64 + c` being the sentinel of cell (`r`,
`c`), and changes nothing. Rests on the spec's own decision D15 (log entry 7). -/
def Obligations.FramebufferExportIsRowMajor : Prop :=
  ∀ s : State,
    (∀ cfg : Config.Sentinels, (fbExport cfg s).length = 2048 ∧
      ∀ r c, r < 32 → c < 64 → (fbExport cfg s)[r * 64 + c]? =
        some (if Framebuffer.cell s.fb r c then cfg.set else cfg.clear)) ∧
    AgentOp.apply .fbExport s = .next s

/-- R211: `TimerExport` returns `DT` and `ST` and changes nothing, and the sound signal is on exactly when `ST` is
positive. -/
def Obligations.TimerExportShowsTheCounters : Prop :=
  ∀ s : State, timerExport s = (s.dt, s.st) ∧ (soundOn s = true ↔ 0 < s.st.toNat) ∧
    AgentOp.apply .timerExport s = .next s

/-! ### The whole machine -/

/-- R200: every step from every state completes with a next state, and so does every run of whole operations, whatever
the image and the order of the operations. Rests on the spec's own decisions D18, D19 (log entries 14, 15). The first
clause is R200's; the clause on runs is DEDUCED from how runs are made up (log entries 14, 15). -/
def Obligations.EveryStepAndEveryRunCompletes : Prop :=
  (∀ s : State, ∃ t, step s = .next t) ∧
  ∀ (r : Run) (s : State), ∃ t, r.result s = .next t

/-- Every step keeps the invariant. The canonical form of memory is the model's own DESIGN CHOICE (log entry 20). -/
def Obligations.StepKeepsTheInvariant : Prop :=
  ∀ s t : State, s.Inv → step s = .next t → t.Inv

/-- The invariant holds after reset. The canonical form of memory is the model's own DESIGN CHOICE (log entry 20). -/
def Obligations.ResetMeetsTheInvariant : Prop := State.reset.Inv

/-- The invariant holds at the end of every run, from a machine in any state: `Reset` establishes it, and `Load`,
every step and every external operation keep it. Rests on the spec's own decisions D18, D19 (log entries 14, 15). The
canonical form of memory is the model's own DESIGN CHOICE (log entry 20). -/
def Obligations.EveryRunEndsInTheInvariant : Prop :=
  ∀ (r : Run) (s : State), ∃ t, r.result s = .next t ∧ t.Inv

/-- R25, R26: no instruction but CALL writes the stack array, and none but CALL and RET writes `SP`. -/
def Obligations.OnlyCallAndReturnTouchTheStack : Prop :=
  ∀ (i : Instr) (s t : State), exec i s = .next t →
    ((∀ nnn, i ≠ .call nnn) → t.stack = s.stack) ∧
    ((∀ nnn, i ≠ .call nnn) → i ≠ .ret → t.sp = s.sp)

/-- R22, R30, R50: no instruction but CLS and DRW writes the framebuffer, none but Fx33 and Fx55 writes memory, and
none but Annn, Fx1E and Fx29 writes `I`, so one that uses `I` as a base leaves it (R146). Rests on the spec's own
decision D12 (log entry 12). -/
def Obligations.WhoWritesFramebufferMemoryAndI : Prop :=
  ∀ (i : Instr) (s t : State), exec i s = .next t →
    (i ≠ .cls → (∀ x y n, i ≠ .drw x y n) → t.fb = s.fb) ∧
    ((∀ x, i ≠ .ldB x) → (∀ x, i ≠ .stRegs x) → t.mem = s.mem) ∧
    ((∀ nnn, i ≠ .ldI nnn) → (∀ x, i ≠ .addI x) → (∀ x, i ≠ .ldF x) → t.i = s.i)

/-- R23: every instruction but the four jumps, the six skips and Fx0A leaves `PC` at its post-advance value; a skip
leaves it there or 2 further, and Fx0A leaves it there or puts it back by 2. Rests on the spec's own decisions D3, D26
(log entry 5). -/
def Obligations.ProgramCounterWrites : Prop :=
  ∀ (i : Instr) (s t : State), exec i s = .next t →
    (i = .ret ∨ (∃ nnn, i = .jp nnn) ∨ (∃ nnn, i = .call nnn) ∨ ∃ nnn, i = .jpV0 nnn) ∨
    ((∃ x kk, i = .seImm x kk ∨ i = .sneImm x kk) ∨ (∃ x y, i = .seReg x y ∨ i = .sneReg x y) ∨
      ∃ x, i = .skp x ∨ i = .sknp x) ∧ (t.pc = s.pc ∨ t.pc = s.pc + 2) ∨
    (∃ x, i = .ldVxK x) ∧ (t.pc = s.pc ∨ t.pc = s.pc - 2) ∨
    t.pc = s.pc

/-- R21: no instruction writes `VF` as a side effect but 8xy4, 8xy5, 8xy6, 8xy7, 8xyE and Dxyn. An instruction that
writes registers otherwise writes `VF` only when it names register 0xF as its destination. -/
def Obligations.OnlySixInstructionsWriteTheFlag : Prop :=
  ∀ (i : Instr) (s t : State), exec i s = .next t →
    flagWritingDestination i = none → (∀ x y n, i ≠ .drw x y n) →
    (∀ kk, i ≠ .ldImm 15 kk) → (∀ kk, i ≠ .addImm 15 kk) →
    (∀ y, i ≠ .ldReg 15 y ∧ i ≠ .orReg 15 y ∧ i ≠ .andReg 15 y ∧ i ≠ .xorReg 15 y) →
    (∀ kk, i ≠ .rnd 15 kk) → i ≠ .ldVxDt 15 → i ≠ .ldVxK 15 → i ≠ .ldRegs 15 →
    t.readV 15 = s.readV 15

/-- R28: no instruction reads `ST`. Two states that differ in `ST` alone step to states that differ at most in `ST`.
Rests on the spec's own decision D17 (log entry 11). Both steps start from one count of draws, so an RND takes the
same byte in both: that is the model's own DESIGN CHOICE (log entry 1). -/
def Obligations.SoundTimerIsNeverRead : Prop :=
  ∀ (s : State) (b : Byte), ∃ t c, step s = .next t ∧ step { s with st := b } = .next { t with st := c }

/-- R29: the keypad is read by Ex9E, ExA1 and Fx0A only. For any other instruction, two states that differ in `KEY`
alone step to states that differ in `KEY` alone. Both steps start from one count of draws, so an RND takes the same
byte in both: that is the model's own DESIGN CHOICE (log entry 1). -/
def Obligations.KeypadIsReadByThreeInstructions : Prop :=
  ∀ (s : State) (keys : Vector Bool 16),
    (∀ x, decodeWord s.fetchWord ≠ .skp x ∧ decodeWord s.fetchWord ≠ .sknp x ∧ decodeWord s.fetchWord ≠ .ldVxK x) →
    ∃ t, step s = .next t ∧ step { s with key := keys } = .next { t with key := keys }

/-- R233, first and second row: a step that stores no byte in 0x000..0x09F leaves the reserved and the font region as
they were. Rests on the spec's own decisions D1, D13 (log entry 5). -/
def Obligations.SparingStepsKeepFontAndReserved : Prop :=
  ∀ s t : State, step s = .next t → s.sparesFontAndReserved (decodeWord s.fetchWord) →
    ∀ a, a % 4096 < 0xA0 → t.memRead a = s.memRead a

/-- R233, fifth row: an instruction whose accesses through `I` stay within 0x000..0xFFF changes no byte of memory outside
them, the addresses taken as they are, without reduction. -/
def Obligations.AccessesInsideMemoryDoNotWrap : Prop :=
  ∀ (i : Instr) (s t : State), exec i s = .next t → s.staysInMemory i →
    ∀ a, a < 4096 → a < s.i.toNat ∨ s.i.toNat + accessLength i ≤ a → t.memRead a = s.memRead a

/-- R219 (decision D20): a program that has ended stays where it is: the step of a jump to itself changes nothing.
Rests on the spec's own decision D20 (log entry 16). -/
def Obligations.EndedProgramStaysPut : Prop :=
  ∀ s : State, s.ended = true → ∀ n, Host.Core.run Sys2Proof.core n s = .next s
end

