-- ==== Sys2Proof/Laws/Decode.lean ====
section
/-! SUPPORT. The fields of the three encoding shapes, a word put together again from its fields, and the masks of the
opcode table nibble by nibble (spec/30_encoding.md R72, R73, R75). -/

namespace Sys2Proof

/-! ### The bits of an encoded word -/

theorem getLsbD_encodeA (op : Nibble) (nnn : Addr12) (i : Nat) :
    (encodeA op nnn).getLsbD i = if i < 12 then nnn.getLsbD i else op.getLsbD (i - 12) :=
  BitVec.getLsbD_append

theorem getLsbD_encodeXK (op : Nibble) (x : RegIdx) (kk : Byte) (i : Nat) :
    (encodeXK op x kk).getLsbD i =
      if i < 12 then (if i < 8 then kk.getLsbD i else (BitVec.ofFin (w := 4) x).getLsbD (i - 8))
      else op.getLsbD (i - 12) := by
  refine (BitVec.getLsbD_append (x := op) (y := BitVec.ofFin (w := 4) x ++ kk)).trans ?_
  rw [BitVec.getLsbD_append]

theorem getLsbD_wordOfBytes (hi lo : Byte) (i : Nat) :
    (wordOfBytes hi lo).getLsbD i = if i < 8 then lo.getLsbD i else hi.getLsbD (i - 8) :=
  BitVec.getLsbD_append

/-- Format `XYN` is format `XK` with `kk` = `y ‖ n` (R72). -/
theorem encodeXYN_eq (op : Nibble) (x y : RegIdx) (n : Nibble) :
    encodeXYN op x y n = encodeXK op x (BitVec.ofFin (w := 4) y ++ n) := rfl

/-! ### Fields of an encoded word -/

@[simp] theorem fieldOp_encodeA (op : Nibble) (nnn : Addr12) : fieldOp (encodeA op nnn) = op := by
  unfold fieldOp
  ext i hi
  rw [BitVec.getElem_extractLsb', getLsbD_encodeA, if_neg (by omega), Nat.add_sub_cancel_left,
    BitVec.getLsbD_eq_getElem hi]

@[simp] theorem fieldNNN_encodeA (op : Nibble) (nnn : Addr12) : fieldNNN (encodeA op nnn) = nnn := by
  unfold fieldNNN
  ext i hi
  rw [BitVec.getElem_extractLsb', getLsbD_encodeA, if_pos (by omega), Nat.zero_add,
    BitVec.getLsbD_eq_getElem hi]

@[simp] theorem fieldOp_encodeXK (op : Nibble) (x : RegIdx) (kk : Byte) :
    fieldOp (encodeXK op x kk) = op := by
  unfold fieldOp
  ext i hi
  rw [BitVec.getElem_extractLsb', getLsbD_encodeXK, if_neg (by omega), Nat.add_sub_cancel_left,
    BitVec.getLsbD_eq_getElem hi]

@[simp] theorem fieldX_encodeXK (op : Nibble) (x : RegIdx) (kk : Byte) :
    fieldX (encodeXK op x kk) = x := by
  have h : (encodeXK op x kk).extractLsb' 8 4 = BitVec.ofFin (w := 4) x := by
    ext i hi
    rw [BitVec.getElem_extractLsb', getLsbD_encodeXK, if_pos (by omega), if_neg (by omega),
      Nat.add_sub_cancel_left, BitVec.getLsbD_eq_getElem hi]
  rw [fieldX, h]

@[simp] theorem fieldKK_encodeXK (op : Nibble) (x : RegIdx) (kk : Byte) :
    fieldKK (encodeXK op x kk) = kk := by
  unfold fieldKK
  ext i hi
  rw [BitVec.getElem_extractLsb', getLsbD_encodeXK, if_pos (by omega), if_pos (by omega), Nat.zero_add,
    BitVec.getLsbD_eq_getElem hi]

@[simp] theorem fieldOp_encodeXYN (op : Nibble) (x y : RegIdx) (n : Nibble) :
    fieldOp (encodeXYN op x y n) = op := by
  rw [encodeXYN_eq, fieldOp_encodeXK]

@[simp] theorem fieldX_encodeXYN (op : Nibble) (x y : RegIdx) (n : Nibble) :
    fieldX (encodeXYN op x y n) = x := by
  rw [encodeXYN_eq, fieldX_encodeXK]

@[simp] theorem fieldY_encodeXYN (op : Nibble) (x y : RegIdx) (n : Nibble) :
    fieldY (encodeXYN op x y n) = y := by
  have h : (encodeXYN op x y n).extractLsb' 4 4 = BitVec.ofFin (w := 4) y := by
    ext i hi
    rw [encodeXYN_eq, BitVec.getElem_extractLsb', getLsbD_encodeXK, if_pos (by omega), if_pos (by omega),
      BitVec.getLsbD_append, if_neg (by omega), Nat.add_sub_cancel_left, BitVec.getLsbD_eq_getElem hi]
  rw [fieldY, h]

@[simp] theorem fieldN_encodeXYN (op : Nibble) (x y : RegIdx) (n : Nibble) :
    fieldN (encodeXYN op x y n) = n := by
  unfold fieldN
  ext i hi
  rw [encodeXYN_eq, BitVec.getElem_extractLsb', getLsbD_encodeXK, if_pos (by omega), if_pos (by omega),
    BitVec.getLsbD_append, if_pos (by omega), Nat.zero_add, BitVec.getLsbD_eq_getElem hi]

/-! ### A word from its fields -/

theorem encodeA_fields (w : Word) : encodeA (fieldOp w) (fieldNNN w) = w := by
  refine BitVec.eq_of_getLsbD_eq fun i hi => ?_
  rw [getLsbD_encodeA, fieldOp, fieldNNN]
  split
  · next h => simp [h]
  · next h =>
    have h1 : i - 12 < 4 := by omega
    have h2 : 12 + (i - 12) = i := by omega
    simp [h1, h2]

theorem encodeXK_fields (w : Word) : encodeXK (fieldOp w) (fieldX w) (fieldKK w) = w := by
  refine BitVec.eq_of_getLsbD_eq fun i hi => ?_
  rw [getLsbD_encodeXK, fieldOp, fieldX, fieldKK, BitVec.ofFin_toFin]
  split
  · split
    · next h => simp [h]
    · have h1 : i - 8 < 4 := by omega
      have h2 : 8 + (i - 8) = i := by omega
      simp [h1, h2]
  · have h1 : i - 12 < 4 := by omega
    have h2 : 12 + (i - 12) = i := by omega
    simp [h1, h2]

/-- `kk` = `y ‖ n` (R72). -/
theorem fieldKK_eq (w : Word) : (BitVec.ofFin (w := 4) (fieldY w) ++ fieldN w : Byte) = fieldKK w := by
  refine BitVec.eq_of_getLsbD_eq fun i hi => ?_
  rw [fieldY, fieldN, fieldKK, BitVec.ofFin_toFin, BitVec.getLsbD_append]
  split
  · next h => simp [h, hi]
  · have h1 : i - 4 < 4 := by omega
    have h2 : 4 + (i - 4) = i := by omega
    simp [h1, h2, hi]

theorem encodeXYN_fields (w : Word) : encodeXYN (fieldOp w) (fieldX w) (fieldY w) (fieldN w) = w := by
  rw [encodeXYN_eq, fieldKK_eq, encodeXK_fields]

/-! ### Bytes of a word (R53) -/

@[simp] theorem highByte_wordOfBytes (hi lo : Byte) : highByte (wordOfBytes hi lo) = hi := by
  unfold highByte
  ext i h
  rw [BitVec.getElem_extractLsb', getLsbD_wordOfBytes, if_neg (by omega), Nat.add_sub_cancel_left,
    BitVec.getLsbD_eq_getElem h]

@[simp] theorem lowByte_wordOfBytes (hi lo : Byte) : lowByte (wordOfBytes hi lo) = lo := by
  unfold lowByte
  ext i h
  rw [BitVec.getElem_extractLsb', getLsbD_wordOfBytes, if_pos (by omega), Nat.zero_add,
    BitVec.getLsbD_eq_getElem h]

@[simp] theorem wordOfBytes_bytes (w : Word) : wordOfBytes (highByte w) (lowByte w) = w := by
  refine BitVec.eq_of_getLsbD_eq fun i hi => ?_
  rw [getLsbD_wordOfBytes, highByte, lowByte]
  split
  · next h => simp [h]
  · have h1 : i - 8 < 8 := by omega
    have h2 : 8 + (i - 8) = i := by omega
    simp [h1, h2]

/-! ### Masks of the opcode table, nibble by nibble (R75) -/

theorem encodeXYN_and (op op' : Nibble) (x x' y y' : RegIdx) (n n' : Nibble) :
    encodeXYN op x y n &&& encodeXYN op' x' y' n' =
      encodeXYN (op &&& op') (BitVec.ofFin (w := 4) x &&& BitVec.ofFin (w := 4) x').toFin
        (BitVec.ofFin (w := 4) y &&& BitVec.ofFin (w := 4) y').toFin (n &&& n') := by
  have h : ∀ (a a' : Nibble) (b b' : BitVec 12), (a ++ b : Word) &&& (a' ++ b') = (a &&& a') ++ (b &&& b') :=
    fun _ _ _ _ => BitVec.and_append
  have h2 : ∀ (a a' : Nibble) (b b' : Byte),
      (a ++ b : BitVec 12) &&& (a' ++ b') = (a &&& a') ++ (b &&& b') :=
    fun _ _ _ _ => BitVec.and_append
  have h3 : ∀ (a a' b b' : Nibble), (a ++ b : Byte) &&& (a' ++ b') = (a &&& a') ++ (b &&& b') :=
    fun _ _ _ _ => BitVec.and_append
  simp only [encodeXYN, BitVec.ofFin_toFin]
  exact (h _ _ _ _).trans (by rw [h2, h3])

/-- Two words are equal exactly when their four nibbles are. -/
theorem encodeXYN_inj {op op' : Nibble} {x x' y y' : RegIdx} {n n' : Nibble} :
    encodeXYN op x y n = encodeXYN op' x' y' n' ↔ op = op' ∧ x = x' ∧ y = y' ∧ n = n' := by
  constructor
  · intro h
    refine ⟨?_, ?_, ?_, ?_⟩
    · simpa using congrArg fieldOp h
    · simpa using congrArg fieldX h
    · simpa using congrArg fieldY h
    · simpa using congrArg fieldN h
  · rintro ⟨rfl, rfl, rfl, rfl⟩
    rfl

/-- Under the mask 0xFFFF the whole word is compared. -/
theorem OpcodeRow.selects_FFFF (m : String) (code w : Word) :
    OpcodeRow.selects ⟨m, 0xFFFF, code⟩ w = decide (w = code) := by
  have h : w &&& 0xFFFF = w := BitVec.and_allOnes
  simp only [OpcodeRow.selects, h]

/-- Under the mask 0xF000 only `op` is compared. -/
theorem OpcodeRow.selects_F000 (m : String) {code : Word} (w : Word) (hc : code &&& 0xF000 = code) :
    OpcodeRow.selects ⟨m, 0xF000, code⟩ w = decide (fieldOp w = fieldOp code) := by
  have h : ∀ v : Word, v &&& 0xF000 = encodeXYN (fieldOp v) 0 0 0 := by
    intro v
    have e := encodeXYN_and (fieldOp v) 0xF (fieldX v) 0 (fieldY v) 0 (fieldN v) 0
    have hop : fieldOp v &&& 0xF = fieldOp v := BitVec.and_allOnes
    have hn : fieldN v &&& 0 = 0 := BitVec.and_zero
    have hz : ∀ z : RegIdx, (BitVec.ofFin (w := 4) z &&& BitVec.ofFin (w := 4) 0).toFin = 0 := by decide
    rw [hop, hn, hz, hz, encodeXYN_fields] at e
    exact e
  have hw : w &&& 0xF000 = code ↔ fieldOp w = fieldOp code := by
    conv_lhs => rw [← hc, h w, h code, encodeXYN_inj]
    simp
  simp only [OpcodeRow.selects, hw]

/-- Under the mask 0xF00F `op` and `n` are compared. -/
theorem OpcodeRow.selects_F00F (m : String) {code : Word} (w : Word) (hc : code &&& 0xF00F = code) :
    OpcodeRow.selects ⟨m, 0xF00F, code⟩ w = decide (fieldOp w = fieldOp code ∧ fieldN w = fieldN code) := by
  have h : ∀ v : Word, v &&& 0xF00F = encodeXYN (fieldOp v) 0 0 (fieldN v) := by
    intro v
    have e := encodeXYN_and (fieldOp v) 0xF (fieldX v) 0 (fieldY v) 0 (fieldN v) 0xF
    have hop : fieldOp v &&& 0xF = fieldOp v := BitVec.and_allOnes
    have hn : fieldN v &&& 0xF = fieldN v := BitVec.and_allOnes
    have hz : ∀ z : RegIdx, (BitVec.ofFin (w := 4) z &&& BitVec.ofFin (w := 4) 0).toFin = 0 := by decide
    rw [hop, hn, hz, hz, encodeXYN_fields] at e
    exact e
  have hw : w &&& 0xF00F = code ↔ fieldOp w = fieldOp code ∧ fieldN w = fieldN code := by
    conv_lhs => rw [← hc, h w, h code, encodeXYN_inj]
    simp
  simp only [OpcodeRow.selects, hw]

/-- Under the mask 0xF0FF `op` and `kk` are compared. -/
theorem OpcodeRow.selects_F0FF (m : String) {code : Word} (w : Word) (hc : code &&& 0xF0FF = code) :
    OpcodeRow.selects ⟨m, 0xF0FF, code⟩ w = decide (fieldOp w = fieldOp code ∧ fieldKK w = fieldKK code) := by
  have h : ∀ v : Word, v &&& 0xF0FF = encodeXK (fieldOp v) 0 (fieldKK v) := by
    intro v
    have e := encodeXYN_and (fieldOp v) 0xF (fieldX v) 0 (fieldY v) 0xF (fieldN v) 0xF
    have hop : fieldOp v &&& 0xF = fieldOp v := BitVec.and_allOnes
    have hn : fieldN v &&& 0xF = fieldN v := BitVec.and_allOnes
    have hz : ∀ z : RegIdx, (BitVec.ofFin (w := 4) z &&& BitVec.ofFin (w := 4) 0).toFin = 0 := by decide
    have hf : ∀ z : RegIdx, (BitVec.ofFin (w := 4) z &&& BitVec.ofFin (w := 4) 0xF).toFin = z := by decide
    rw [hop, hn, hz, hf, encodeXYN_fields] at e
    exact e.trans (by rw [encodeXYN_eq, fieldKK_eq])
  have inj : ∀ {a b : Nibble} {k l : Byte}, encodeXK a 0 k = encodeXK b 0 l ↔ a = b ∧ k = l := by
    intro a b k l
    constructor
    · intro he
      exact ⟨by simpa using congrArg fieldOp he, by simpa using congrArg fieldKK he⟩
    · rintro ⟨rfl, rfl⟩
      rfl
  have hw : w &&& 0xF0FF = code ↔ fieldOp w = fieldOp code ∧ fieldKK w = fieldKK code := by
    conv_lhs => rw [← hc, h w, h code, inj]
  simp only [OpcodeRow.selects, hw]

end Sys2Proof
end

