-- ==== Sys2Proof/Laws/Framebuffer.lean ====
section
/-! SUPPORT. The laws of the framebuffer: a flip changes one cell, equal cells mean equal framebuffers, and what the draw
loops leave, cell by cell (spec/43_display.md R161 to R164). -/

namespace Sys2Proof.Machine

theorem Framebuffer.cell_of_out {fb : Framebuffer} {r c : Nat} (h : ¬(r < 32 ∧ c < 64)) :
    Framebuffer.cell fb r c = false := by
  simp [Framebuffer.cell, h]

@[simp] theorem Framebuffer.cell_clear (r c : Nat) : Framebuffer.cell Framebuffer.clear r c = false := by
  unfold Framebuffer.cell Framebuffer.clear
  split <;> simp

theorem Framebuffer.cell_flip (fb : Framebuffer) (r c r' c' : Nat) :
    Framebuffer.cell (Framebuffer.flip fb r c) r' c' =
      (Framebuffer.cell fb r' c' ^^ decide (r' = r ∧ c' = c ∧ r < 32 ∧ c < 64)) := by
  unfold Framebuffer.flip
  split
  · next h =>
    unfold Framebuffer.cell
    split
    · next h' =>
      by_cases hr : r' = r
      · subst hr
        by_cases hc : c' = c
        · subst hc
          simp [h'.1, h'.2]
        · simp [hc, Ne.symm hc]
      · simp [hr, Ne.symm hr]
    · next h' =>
      have : ¬(r' = r ∧ c' = c ∧ r < 32 ∧ c < 64) := by
        rintro ⟨rfl, rfl, h1, h2⟩
        exact h' ⟨h1, h2⟩
      simp [this]
  · next h =>
    have : ¬(r' = r ∧ c' = c ∧ r < 32 ∧ c < 64) := fun e => h e.2.2
    simp [this]

theorem Framebuffer.ext_of_cell {fb fb' : Framebuffer}
    (h : ∀ r c, r < 32 → c < 64 → Framebuffer.cell fb r c = Framebuffer.cell fb' r c) : fb = fb' := by
  ext r hr c hc
  simpa [Framebuffer.cell, hr, hc] using h r c hr hc

/-! ### The draw loops -/

/-- One pixel: at most one cell flips, and the flag remembers a set cell under a set bit. -/
theorem drawPixel_spec (ox row : Nat) (b : Byte) (d : DrawState) (k : Nat) :
    (∀ r c, Framebuffer.cell (drawPixel ox row b d k).1 r c =
      (Framebuffer.cell d.1 r c ^^
        (decide (r = row ∧ c = ox + k ∧ r < 32 ∧ c < 64) && b.getLsbD (7 - k)))) ∧
    (drawPixel ox row b d k).2 =
      (d.2 || (b.getLsbD (7 - k) && Framebuffer.cell d.1 row (ox + k))) := by
  unfold drawPixel
  by_cases hb : b.getLsbD (7 - k) <;> by_cases hin : ox + k ≤ 63 ∧ row ≤ 31
  · have hc : row < 32 ∧ ox + k < 64 := by omega
    simp only [hb, hin.1, hin.2, decide_true, Bool.and_true, if_true, Bool.true_and,
      Framebuffer.cell_flip, and_true]
    intro r c
    congr 2
    simp only [eq_iff_iff]
    omega
  · have hc : ¬(row < 32 ∧ ox + k < 64) := by omega
    have hf : (b.getLsbD (7 - k) && decide (ox + k ≤ 63) && decide (row ≤ 31)) = false := by
      simp only [hb, Bool.true_and, Bool.and_eq_false_iff, decide_eq_false_iff_not]
      omega
    have hd : ∀ r c, ¬(r = row ∧ c = ox + k ∧ r < 32 ∧ c < 64) := by
      intro r c
      omega
    simp [hf, hd, Framebuffer.cell_of_out hc]
  · simp [hb]
  · simp [hb]

/-- The first `k` pixels of a row: the cells under their set bits flip, and the flag is set when one of those was set. -/
theorem drawPixels_spec (ox row : Nat) (b : Byte) (d : DrawState) (k : Nat) :
    (∀ r c, Framebuffer.cell ((List.range k).foldl (drawPixel ox row b) d).1 r c =
      (Framebuffer.cell d.1 r c ^^
        (decide (r = row ∧ ox ≤ c ∧ c < ox + k ∧ r < 32 ∧ c < 64) && b.getLsbD (7 - (c - ox))))) ∧
    (((List.range k).foldl (drawPixel ox row b) d).2 = true ↔
      d.2 = true ∨ ∃ j, j < k ∧ b.getLsbD (7 - j) = true ∧ Framebuffer.cell d.1 row (ox + j) = true) := by
  induction k with
  | zero =>
    have hd : ∀ r c, ¬(r = row ∧ ox ≤ c ∧ c < ox + 0 ∧ r < 32 ∧ c < 64) := by
      intro r c
      omega
    simp only [hd, decide_false, Bool.false_and, Bool.xor_false]
    simp
  | succ k ih =>
    obtain ⟨ih1, ih2⟩ := ih
    simp only [List.range_succ, List.foldl_append, List.foldl_cons, List.foldl_nil]
    obtain ⟨p1, p2⟩ := drawPixel_spec ox row b ((List.range k).foldl (drawPixel ox row b) d) k
    constructor
    · intro r c
      rw [p1, ih1]
      by_cases hk : c = ox + k
      · have h1 : ¬(r = row ∧ ox ≤ c ∧ c < ox + k ∧ r < 32 ∧ c < 64) := by omega
        have h2 : (r = row ∧ ox ≤ c ∧ c < ox + (k + 1) ∧ r < 32 ∧ c < 64) ↔
            (r = row ∧ c = ox + k ∧ r < 32 ∧ c < 64) := by omega
        have h3 : c - ox = k := by omega
        simp only [h1, h2, h3, decide_false, Bool.false_and, Bool.xor_false]
      · have h1 : ¬(r = row ∧ c = ox + k ∧ r < 32 ∧ c < 64) := by omega
        have h2 : (r = row ∧ ox ≤ c ∧ c < ox + (k + 1) ∧ r < 32 ∧ c < 64) ↔
            (r = row ∧ ox ≤ c ∧ c < ox + k ∧ r < 32 ∧ c < 64) := by omega
        simp only [h1, h2, decide_false, Bool.false_and, Bool.xor_false]
    · have hfresh : ¬(ox ≤ ox + k ∧ ox + k < ox + k ∧ row < 32 ∧ ox + k < 64) := by omega
      rw [p2, ih1]
      simp only [true_and, hfresh, decide_false, Bool.false_and, Bool.xor_false, Bool.or_eq_true, ih2,
        Bool.and_eq_true]
      constructor
      · rintro ((h | ⟨j, hj, h⟩) | h)
        · exact .inl h
        · exact .inr ⟨j, by omega, h⟩
        · exact .inr ⟨k, by omega, h⟩
      · rintro (h | ⟨j, hj, h⟩)
        · exact .inl (.inl h)
        · by_cases hjk : j = k
          · exact .inr (hjk ▸ h)
          · exact .inl (.inr ⟨j, by omega, h⟩)

/-- A whole sprite row (R161). -/
theorem drawRow_spec (ox row : Nat) (b : Byte) (d : DrawState) :
    (∀ r c, Framebuffer.cell (drawRow ox row b d).1 r c =
      (Framebuffer.cell d.1 r c ^^
        (decide (r = row ∧ ox ≤ c ∧ c < ox + 8 ∧ r < 32 ∧ c < 64) && b.getLsbD (7 - (c - ox))))) ∧
    ((drawRow ox row b d).2 = true ↔
      d.2 = true ∨ ∃ j, j < 8 ∧ b.getLsbD (7 - j) = true ∧ Framebuffer.cell d.1 row (ox + j) = true) :=
  drawPixels_spec ox row b d 8

/-- A whole sprite, cell by cell: the cells under its set bits flip, and the flag is set exactly when one of them was set
before the draw (R161 to R164). -/
theorem drawSprite_spec (fb : Framebuffer) (ox oy n : Nat) (rows : Nat → Byte) :
    (∀ r c, r < 32 → c < 64 → Framebuffer.cell (drawSprite fb ox oy n rows).1 r c =
      (Framebuffer.cell fb r c ^^ spriteCovers ox oy n rows r c)) ∧
    ((drawSprite fb ox oy n rows).2 = true ↔
      ∃ r c, r < 32 ∧ c < 64 ∧ spriteCovers ox oy n rows r c = true ∧ Framebuffer.cell fb r c = true) := by
  unfold drawSprite
  induction n with
  | zero =>
    have hd : ∀ r c, ¬(oy ≤ r ∧ r < oy + 0 ∧ ox ≤ c ∧ c < ox + 8) := by
      intro r c
      omega
    simp only [spriteCovers, hd, decide_false, Bool.false_and, Bool.xor_false]
    simp
  | succ n ih =>
    obtain ⟨ih1, ih2⟩ := ih
    simp only [List.range_succ, List.foldl_append, List.foldl_cons, List.foldl_nil]
    obtain ⟨p1, p2⟩ := drawRow_spec ox (oy + n) (rows n)
      ((List.range n).foldl (fun d r => drawRow ox (oy + r) (rows r) d) (fb, false))
    constructor
    · intro r c hr hc
      rw [p1, ih1 r c hr hc]
      by_cases hrow : r = oy + n
      · have h1 : ¬(oy ≤ r ∧ r < oy + n ∧ ox ≤ c ∧ c < ox + 8) := by omega
        have h2 : (oy ≤ r ∧ r < oy + (n + 1) ∧ ox ≤ c ∧ c < ox + 8) ↔
            (r = oy + n ∧ ox ≤ c ∧ c < ox + 8 ∧ r < 32 ∧ c < 64) := by omega
        have h3 : r - oy = n := by omega
        simp only [spriteCovers, h1, h2, h3, decide_false, Bool.false_and, Bool.xor_false]
      · have h1 : ¬(r = oy + n ∧ ox ≤ c ∧ c < ox + 8 ∧ r < 32 ∧ c < 64) := by omega
        have h2 : (oy ≤ r ∧ r < oy + (n + 1) ∧ ox ≤ c ∧ c < ox + 8) ↔
            (oy ≤ r ∧ r < oy + n ∧ ox ≤ c ∧ c < ox + 8) := by omega
        simp only [spriteCovers, h1, h2, decide_false, Bool.false_and, Bool.xor_false]
    · rw [p2, ih2]
      have fresh : ∀ j, j < 8 → oy + n < 32 → ox + j < 64 →
          Framebuffer.cell ((List.range n).foldl
            (fun d r => drawRow ox (oy + r) (rows r) d) (fb, false)).1 (oy + n) (ox + j) =
          Framebuffer.cell fb (oy + n) (ox + j) := by
        intro j _ h1 h2
        have h3 : ¬(oy ≤ oy + n ∧ oy + n < oy + n ∧ ox ≤ ox + j ∧ ox + j < ox + 8) := by omega
        rw [ih1 _ _ h1 h2]
        simp only [spriteCovers, h3, decide_false, Bool.false_and, Bool.xor_false]
      constructor
      · rintro (⟨r, c, hr, hc, hs, hf⟩ | ⟨j, hj, hb, hf⟩)
        · refine ⟨r, c, hr, hc, ?_, hf⟩
          simp only [spriteCovers, Bool.and_eq_true, decide_eq_true_eq] at hs ⊢
          exact ⟨by omega, hs.2⟩
        · have hin : oy + n < 32 ∧ ox + j < 64 := by
            by_contra hout
            simp [Framebuffer.cell_of_out hout] at hf
          refine ⟨oy + n, ox + j, hin.1, hin.2, ?_, ?_⟩
          · simp only [spriteCovers, Bool.and_eq_true, decide_eq_true_eq, Nat.add_sub_cancel_left]
            exact ⟨by omega, hb⟩
          · rwa [fresh j hj hin.1 hin.2] at hf
      · rintro ⟨r, c, hr, hc, hs, hf⟩
        simp only [spriteCovers, Bool.and_eq_true, decide_eq_true_eq] at hs
        by_cases hrow : r = oy + n
        · subst hrow
          obtain ⟨j, rfl⟩ : ∃ j, c = ox + j := ⟨c - ox, by omega⟩
          simp only [Nat.add_sub_cancel_left] at hs
          refine .inr ⟨j, by omega, hs.2, ?_⟩
          rwa [fresh j (by omega) hr hc]
        · refine .inl ⟨r, c, hr, hc, ?_, hf⟩
          simp only [spriteCovers, Bool.and_eq_true, decide_eq_true_eq]
          exact ⟨by omega, hs.2⟩

end Sys2Proof.Machine
end

