-- ==== Sys2Proof/Laws/Memory.lean ====
section
/-! SUPPORT. The laws of memory: a read after a write, other bytes left alone, the canonical form kept, equal reads mean
equal listed bytes, and what a sequence of byte writes leaves (spec/20_memory.md R51, R52, R55). -/

namespace Sys2Proof.Machine

theorem memIndex_lt (a : Nat) : memIndex a < 4096 := Nat.mod_lt _ (by decide)

@[simp] theorem memIndex_memIndex (a : Nat) : memIndex (memIndex a) = memIndex a := by
  simp [memIndex]

theorem memIndex_of_lt {a : Nat} (h : a < 4096) : memIndex a = a := Nat.mod_eq_of_lt h

/-! ### One byte, at addresses already reduced -/

theorem Memory.lookup_erase_same (m : Memory) (a : Nat) :
    Memory.lookup (Memory.erase m a) a = Memory.unlisted a := by
  induction m with
  | nil => rfl
  | cons c m ih =>
    obtain ⟨b, v⟩ := c
    by_cases h : b = a <;> simp [Memory.erase, Memory.lookup, h, ih]

theorem Memory.lookup_erase_other (m : Memory) {a b : Nat} (h : b ≠ a) :
    Memory.lookup (Memory.erase m a) b = Memory.lookup m b := by
  induction m with
  | nil => rfl
  | cons c m ih =>
    obtain ⟨d, v⟩ := c
    by_cases h1 : d = a
    · have h2 : ¬ d = b := by omega
      simp [Memory.erase, Memory.lookup, h1, ih, Ne.symm h]
    · by_cases h2 : d = b
      · subst h2
        simp [Memory.erase, Memory.lookup, h1]
      · simp [Memory.erase, Memory.lookup, h1, h2, ih]

theorem Memory.lookup_insert_same (m : Memory) (a : Nat) (v : Byte)
    (h : ∀ c ∈ m, c.1 ≠ a) : Memory.lookup (Memory.insert m a v) a = v := by
  induction m with
  | nil => simp [Memory.insert, Memory.lookup]
  | cons c m ih =>
    obtain ⟨b, u⟩ := c
    have hb : b ≠ a := h (b, u) (by simp)
    have hm : ∀ c ∈ m, c.1 ≠ a := fun c hc => h c (by simp [hc])
    by_cases h1 : a < b <;> simp [Memory.insert, Memory.lookup, h1, hb, ih hm]

theorem Memory.lookup_insert_other (m : Memory) {a b : Nat} (v : Byte) (h : b ≠ a) :
    Memory.lookup (Memory.insert m a v) b = Memory.lookup m b := by
  induction m with
  | nil => simp [Memory.insert, Memory.lookup, Ne.symm h]
  | cons c m ih =>
    obtain ⟨d, u⟩ := c
    by_cases h1 : a < d
    · simp [Memory.insert, Memory.lookup, h1, Ne.symm h]
    · by_cases h2 : d = b
      · subst h2
        simp [Memory.insert, Memory.lookup, h1]
      · simp [Memory.insert, Memory.lookup, h1, h2, ih]

theorem Memory.mem_erase {m : Memory} {a : Nat} {c : Host.Cell} :
    c ∈ Memory.erase m a ↔ c ∈ m ∧ c.1 ≠ a := by
  induction m with
  | nil => simp [Memory.erase]
  | cons d m ih =>
    obtain ⟨b, v⟩ := d
    by_cases h : b = a
    · simp only [Memory.erase, h, if_true, ih, List.mem_cons]
      constructor
      · rintro ⟨h1, h2⟩
        exact ⟨.inr h1, h2⟩
      · rintro ⟨rfl | h1, h2⟩
        · exact absurd rfl h2
        · exact ⟨h1, h2⟩
    · simp only [Memory.erase, h, if_false, ih, List.mem_cons]
      constructor
      · rintro (rfl | ⟨h1, h2⟩)
        · exact ⟨.inl rfl, h⟩
        · exact ⟨.inr h1, h2⟩
      · rintro ⟨rfl | h1, h2⟩
        · exact .inl rfl
        · exact .inr ⟨h1, h2⟩

theorem Memory.mem_insert {m : Memory} {a : Nat} {v : Byte} {c : Host.Cell} :
    c ∈ Memory.insert m a v ↔ c = (a, v) ∨ c ∈ m := by
  induction m with
  | nil => simp [Memory.insert]
  | cons d m ih =>
    obtain ⟨b, u⟩ := d
    by_cases h : a < b
    · simp [Memory.insert, h]
    · simp only [Memory.insert, h, if_false, List.mem_cons, ih]
      tauto

theorem Memory.lookup_put_same (m : Memory) (a : Nat) (v : Byte) :
    Memory.lookup (Memory.put m a v) a = v := by
  unfold Memory.put
  split
  · next h => rw [Memory.lookup_erase_same, h]
  · exact Memory.lookup_insert_same _ _ _ fun c hc => (Memory.mem_erase.1 hc).2

theorem Memory.lookup_put_other (m : Memory) {a b : Nat} (v : Byte) (h : b ≠ a) :
    Memory.lookup (Memory.put m a v) b = Memory.lookup m b := by
  unfold Memory.put
  split
  · exact Memory.lookup_erase_other m h
  · rw [Memory.lookup_insert_other _ _ h, Memory.lookup_erase_other m h]

/-! ### One byte, through the port (R51, R52) -/

theorem Memory.read_write_same (m : Memory) {a b : Nat} (v : Byte) (h : memIndex b = memIndex a) :
    Memory.read (Memory.write m a v) b = v := by
  simp [Memory.read, Memory.write, h, Memory.lookup_put_same]

theorem Memory.read_write_other (m : Memory) {a b : Nat} (v : Byte) (h : memIndex b ≠ memIndex a) :
    Memory.read (Memory.write m a v) b = Memory.read m b :=
  Memory.lookup_put_other m v h

theorem Memory.read_memIndex (m : Memory) (a : Nat) : Memory.read m (memIndex a) = Memory.read m a := by
  simp [Memory.read]

theorem Memory.read_congr (m : Memory) {a b : Nat} (h : memIndex a = memIndex b) :
    Memory.read m a = Memory.read m b := by
  simp [Memory.read, h]

@[simp] theorem Memory.read_nil (a : Nat) : Memory.read [] a = Memory.unlisted (memIndex a) := rfl

/-! ### Reset contents (R32, R36) -/

theorem Memory.unlisted_font {k : Nat} (h : k < 80) : Memory.unlisted (0x50 + k) = Config.font[k] := by
  unfold Memory.unlisted
  rw [dif_pos (by omega)]
  congr 1
  omega

theorem Memory.unlisted_zero {a : Nat} (h : a < 0x50 ∨ 0xA0 ≤ a) : Memory.unlisted a = 0 := by
  unfold Memory.unlisted
  rw [dif_neg (by omega)]

/-! ### The canonical form -/

theorem Memory.erase_pairwise {m : Memory} (a : Nat) (h : m.Pairwise fun c d => c.1 < d.1) :
    (Memory.erase m a).Pairwise fun c d => c.1 < d.1 := by
  induction m with
  | nil => simp [Memory.erase]
  | cons c m ih =>
    obtain ⟨b, v⟩ := c
    rw [List.pairwise_cons] at h
    by_cases hb : b = a
    · simpa [Memory.erase, hb] using ih h.2
    · simp only [Memory.erase, hb, if_false, List.pairwise_cons]
      exact ⟨fun d hd => h.1 d (Memory.mem_erase.1 hd).1, ih h.2⟩

theorem Memory.insert_pairwise {m : Memory} (a : Nat) (v : Byte)
    (h : m.Pairwise fun c d => c.1 < d.1) (hne : ∀ c ∈ m, c.1 ≠ a) :
    (Memory.insert m a v).Pairwise fun c d => c.1 < d.1 := by
  induction m with
  | nil => simp [Memory.insert]
  | cons c m ih =>
    obtain ⟨b, u⟩ := c
    rw [List.pairwise_cons] at h
    have hb : b ≠ a := hne (b, u) (by simp)
    by_cases hlt : a < b
    · simp only [Memory.insert, hlt, if_true, List.pairwise_cons]
      refine ⟨?_, h.1, h.2⟩
      rintro d hd
      rcases List.mem_cons.1 hd with rfl | hd
      · exact hlt
      · exact Nat.lt_trans hlt (h.1 d hd)
    · simp only [Memory.insert, hlt, if_false, List.pairwise_cons]
      refine ⟨?_, ih h.2 fun c hc => hne c (by simp [hc])⟩
      rintro d hd
      rcases Memory.mem_insert.1 hd with rfl | hd
      · show b < a
        omega
      · exact h.1 d hd

theorem Memory.put_wf {m : Memory} {a : Nat} (v : Byte) (ha : a < 4096) (h : Memory.wf m) :
    Memory.wf (Memory.put m a v) := by
  have he := Memory.erase_pairwise a h.1
  unfold Memory.put
  split
  · exact ⟨he, fun c hc => h.2 c (Memory.mem_erase.1 hc).1⟩
  · next hv =>
    refine ⟨Memory.insert_pairwise a v he fun c hc => (Memory.mem_erase.1 hc).2, ?_⟩
    intro c hc
    rcases Memory.mem_insert.1 hc with rfl | hc
    · exact ⟨ha, hv⟩
    · exact h.2 c (Memory.mem_erase.1 hc).1

theorem Memory.write_wf {m : Memory} (a : Nat) (v : Byte) (h : Memory.wf m) :
    Memory.wf (Memory.write m a v) :=
  Memory.put_wf v (memIndex_lt a) h

theorem Memory.writeBytes_wf {m : Memory} (a : Nat) (vs : List Byte) (h : Memory.wf m) :
    Memory.wf (Memory.writeBytes m a vs) := by
  induction vs generalizing m a with
  | nil => exact h
  | cons v vs ih => exact ih (a + 1) (Memory.write_wf a v h)

theorem Memory.wf_nil : Memory.wf [] := by simp [Memory.wf]

/-- A listed address reads as its pair says. -/
theorem Memory.lookup_of_mem {m : Memory} {a : Nat} {v : Byte} (h : m.Pairwise fun c d => c.1 < d.1)
    (hm : (a, v) ∈ m) : Memory.lookup m a = v := by
  induction m with
  | nil => simp at hm
  | cons c m ih =>
    obtain ⟨b, u⟩ := c
    rw [List.pairwise_cons] at h
    rcases List.mem_cons.1 hm with heq | hm
    · cases heq
      simp [Memory.lookup]
    · have hlt : b < a := h.1 _ hm
      have hne : ¬ b = a := by omega
      simp [Memory.lookup, hne, ih h.2 hm]

/-- An address without a pair reads as its reset contents. -/
theorem Memory.lookup_of_not_mem {m : Memory} {a : Nat} (h : ∀ v, (a, v) ∉ m) :
    Memory.lookup m a = Memory.unlisted a := by
  induction m with
  | nil => rfl
  | cons c m ih =>
    obtain ⟨b, u⟩ := c
    have hne : ¬ b = a := fun e => h u (by simp [e])
    simp [Memory.lookup, hne, ih fun v hv => h v (by simp [hv])]

/-- A pair of one canonical memory is in every canonical memory that reads alike. -/
theorem Memory.mem_of_read_eq {p q : Memory} {c : Host.Cell} (hp : Memory.wf p) (hq : Memory.wf q)
    (hpq : ∀ a, a < 4096 → Memory.read p a = Memory.read q a) (hc : c ∈ p) : c ∈ q := by
  obtain ⟨a, v⟩ := c
  obtain ⟨ha, hv⟩ := hp.2 _ hc
  have e := hpq a ha
  simp only [Memory.read, memIndex_of_lt ha, Memory.lookup_of_mem hp.1 hc] at e
  by_contra hn
  have hnone : ∀ u, (a, u) ∉ q := by
    intro u hu
    have := Memory.lookup_of_mem hq.1 hu
    rw [← e] at this
    exact hn (this ▸ hu)
  exact hv (e.trans (Memory.lookup_of_not_mem hnone))

/-! ### A sequence of bytes (R51, R55) -/

/-- A byte outside the sequence reads as before. -/
theorem Memory.read_writeBytes_other (m : Memory) (a b : Nat) (vs : List Byte)
    (h : ∀ k, k < vs.length → memIndex b ≠ memIndex (a + k)) :
    Memory.read (Memory.writeBytes m a vs) b = Memory.read m b := by
  induction vs generalizing m a with
  | nil => rfl
  | cons v vs ih =>
    have h0 : memIndex b ≠ memIndex a := by simpa using h 0 (by simp)
    rw [Memory.writeBytes, ih]
    · exact Memory.read_write_other m v h0
    · intro k hk
      have := h (k + 1) (by simpa using hk)
      rwa [show a + (k + 1) = a + 1 + k by omega] at this

/-- A byte of the sequence reads as written; no two of at most 4096 consecutive addresses meet in the ring. -/
theorem Memory.read_writeBytes (m : Memory) (a b k : Nat) (vs : List Byte) (hl : vs.length ≤ 4096)
    (hk : k < vs.length) (h : memIndex b = memIndex (a + k)) :
    Memory.read (Memory.writeBytes m a vs) b = vs[k] := by
  induction vs generalizing m a k with
  | nil => simp at hk
  | cons v vs ih =>
    simp only [List.length_cons] at hl hk
    cases k with
    | zero =>
      rw [Memory.writeBytes, Memory.read_writeBytes_other]
      · simpa using Memory.read_write_same m v (by simpa using h)
      · intro j hj
        simp only [memIndex, Nat.add_zero] at h ⊢
        omega
    | succ k =>
      rw [Memory.writeBytes, ih (Memory.write m a v) (a + 1) k (by omega) (by omega)]
      · simp
      · rw [h]
        congr 1
        omega

/-! ### On the state -/

theorem State.memRead_of_mem_eq {s t : State} (h : t.mem = s.mem) (a : Nat) :
    t.memRead a = s.memRead a := by
  simp [State.memRead, h]

theorem State.memRead_memWriteBytes_other (s : State) (a b : Nat) (vs : List Byte)
    (h : ∀ k, k < vs.length → memIndex b ≠ memIndex (a + k)) :
    (s.memWriteBytes a vs).memRead b = s.memRead b :=
  Memory.read_writeBytes_other s.mem a b vs h

theorem State.memRead_memWriteBytes (s : State) (a b k : Nat) (vs : List Byte) (hl : vs.length ≤ 4096)
    (hk : k < vs.length) (h : memIndex b = memIndex (a + k)) :
    (s.memWriteBytes a vs).memRead b = vs[k] :=
  Memory.read_writeBytes s.mem a b k vs hl hk h

/-- With the default font table the parametric reset is the reset (R230). -/
theorem resetWith_default : resetWith Config.font = State.reset := by decide +kernel

end Sys2Proof.Machine
end

