-- ==== Sys2Proof/Laws/Ops.lean ====
section
/-! SUPPORT. One lemma for each shared operation over registers, program counter, stack, operands, flags and keypad. -/

namespace Sys2Proof.Machine

/-! ### Registers (R20, R132) -/

@[simp] theorem State.readV_writeV (s : State) (x y : RegIdx) (b : Byte) :
    (s.writeV x b).readV y = if y = x then b else s.readV y := by
  simp only [State.readV, State.writeV_v, Fin.getElem_fin, Vector.getElem_set]
  by_cases h : y = x
  · simp [h]
  · have : ¬ x.val = y.val := fun e => h (Fin.ext e.symm)
    simp [h, this]

theorem State.readV_of_v_eq {s t : State} (h : t.v = s.v) (x : RegIdx) : t.readV x = s.readV x := by
  simp [State.readV, h]

/-- Both writes are performed, the result last (R132). -/
theorem State.readV_writeFlagThenResult (s : State) (x y : RegIdx) (f : Bool) (b : Byte) :
    (s.writeFlagThenResult x f b).readV y =
      if y = x then b else if y = flagReg then flagByte f else s.readV y := by
  simp [State.writeFlagThenResult]

/-- Nothing but the registers changes. -/
theorem State.writeFlagThenResult_eq (s : State) (x : RegIdx) (f : Bool) (b : Byte) :
    s.writeFlagThenResult x f b = { s with v := (s.writeFlagThenResult x f b).v } := rfl

@[simp] theorem State.writeFlagThenResult_i (s : State) (x : RegIdx) (f : Bool) (b : Byte) :
    (s.writeFlagThenResult x f b).i = s.i := rfl
@[simp] theorem State.writeFlagThenResult_pc (s : State) (x : RegIdx) (f : Bool) (b : Byte) :
    (s.writeFlagThenResult x f b).pc = s.pc := rfl
@[simp] theorem State.writeFlagThenResult_stack (s : State) (x : RegIdx) (f : Bool) (b : Byte) :
    (s.writeFlagThenResult x f b).stack = s.stack := rfl
@[simp] theorem State.writeFlagThenResult_sp (s : State) (x : RegIdx) (f : Bool) (b : Byte) :
    (s.writeFlagThenResult x f b).sp = s.sp := rfl
@[simp] theorem State.writeFlagThenResult_dt (s : State) (x : RegIdx) (f : Bool) (b : Byte) :
    (s.writeFlagThenResult x f b).dt = s.dt := rfl
@[simp] theorem State.writeFlagThenResult_st (s : State) (x : RegIdx) (f : Bool) (b : Byte) :
    (s.writeFlagThenResult x f b).st = s.st := rfl
@[simp] theorem State.writeFlagThenResult_key (s : State) (x : RegIdx) (f : Bool) (b : Byte) :
    (s.writeFlagThenResult x f b).key = s.key := rfl
@[simp] theorem State.writeFlagThenResult_fb (s : State) (x : RegIdx) (f : Bool) (b : Byte) :
    (s.writeFlagThenResult x f b).fb = s.fb := rfl
@[simp] theorem State.writeFlagThenResult_mem (s : State) (x : RegIdx) (f : Bool) (b : Byte) :
    (s.writeFlagThenResult x f b).mem = s.mem := rfl
@[simp] theorem State.writeFlagThenResult_draws (s : State) (x : RegIdx) (f : Bool) (b : Byte) :
    (s.writeFlagThenResult x f b).draws = s.draws := rfl

/-! ### Program counter (R23, R24, R71, R108) -/

theorem pc_add_two (w : Word) : (w + 2).toNat = (w.toNat + 2) % 65536 := by
  simp [BitVec.toNat_add]

/-- Subtracting 2 modulo 65536 is adding 65534 (R24). -/
theorem pc_sub_two (w : Word) : (w - 2).toNat = (w.toNat + 65534) % 65536 := by
  simp [BitVec.toNat_sub, Nat.add_comm]

theorem State.skipIf_eq (s : State) (c : Bool) :
    s.skipIf c = { s with pc := if c then s.pc + 2 else s.pc } := by
  cases c <;> rfl

@[simp] theorem State.skipIf_v (s : State) (c : Bool) : (s.skipIf c).v = s.v := by rw [State.skipIf_eq]
@[simp] theorem State.skipIf_i (s : State) (c : Bool) : (s.skipIf c).i = s.i := by rw [State.skipIf_eq]
@[simp] theorem State.skipIf_stack (s : State) (c : Bool) : (s.skipIf c).stack = s.stack := by rw [State.skipIf_eq]
@[simp] theorem State.skipIf_sp (s : State) (c : Bool) : (s.skipIf c).sp = s.sp := by rw [State.skipIf_eq]
@[simp] theorem State.skipIf_dt (s : State) (c : Bool) : (s.skipIf c).dt = s.dt := by rw [State.skipIf_eq]
@[simp] theorem State.skipIf_st (s : State) (c : Bool) : (s.skipIf c).st = s.st := by rw [State.skipIf_eq]
@[simp] theorem State.skipIf_key (s : State) (c : Bool) : (s.skipIf c).key = s.key := by rw [State.skipIf_eq]
@[simp] theorem State.skipIf_fb (s : State) (c : Bool) : (s.skipIf c).fb = s.fb := by rw [State.skipIf_eq]
@[simp] theorem State.skipIf_mem (s : State) (c : Bool) : (s.skipIf c).mem = s.mem := by rw [State.skipIf_eq]
@[simp] theorem State.skipIf_draws (s : State) (c : Bool) : (s.skipIf c).draws = s.draws := by rw [State.skipIf_eq]
@[simp] theorem State.skipIf_pc (s : State) (c : Bool) : (s.skipIf c).pc = if c then s.pc + 2 else s.pc := by
  rw [State.skipIf_eq]

/-- The rewind undoes the advance (R173). -/
theorem State.rewindPc_advancePc (s : State) : s.advancePc.rewindPc = s := by
  simp [State.advancePc, State.rewindPc, State.setPc]

/-! ### Memory seen from the registers -/

@[simp] theorem State.memRead_advancePc (s : State) (a : Nat) : s.advancePc.memRead a = s.memRead a := rfl

/-- The fetch sees only the low 12 bits of `PC` (R51, R53). -/
theorem State.fetchWord_congr {s t : State} (hm : t.mem = s.mem)
    (h : s.pc.toNat % 4096 = t.pc.toNat % 4096) : t.fetchWord = s.fetchWord := by
  have h1 : memIndex (t.pc.toNat + 1) = memIndex (s.pc.toNat + 1) := by
    unfold memIndex
    omega
  simp only [State.fetchWord, State.memRead2, State.memRead, hm]
  rw [Memory.read_congr s.mem (show memIndex t.pc.toNat = memIndex s.pc.toNat from h.symm),
    Memory.read_congr s.mem h1]

/-! ### Call stack (R27) -/

theorem State.popSp_push (s : State) (w : Word) : (s.push w).popSp = s.sp := by
  simp [State.popSp, State.push]

/-- A pop takes back what the last push stored (R27). -/
theorem State.popValue_push (s : State) (w : Word) : (s.push w).popValue = w := by
  simp [State.popValue, State.popSp_push]

theorem State.push_stack_other (s : State) (w : Word) {k : Nat} (hk : k < 16) (h : k ≠ s.sp.toNat) :
    (s.push w).stack[k] = s.stack[k] := by
  have : ¬ s.sp.toNat = k := Ne.symm h
  simp [State.push, this]

theorem State.push_stack_same (s : State) (w : Word) : (s.push w).stack[s.sp.toFin] = w := by
  simp [State.push]

/-! ### Operands -/

@[simp] theorem addrImm_toNat (nnn : Addr12) : (addrImm nnn).toNat = nnn.toNat := by
  have h := nnn.isLt
  simp only [addrImm, BitVec.toNat_setWidth]
  omega

@[simp] theorem zextByte_toNat (b : Byte) : (zextByte b).toNat = b.toNat := by
  have h := b.isLt
  simp only [zextByte, BitVec.toNat_setWidth]
  omega

theorem glyphAddr_toNat (b : Byte) : (glyphAddr b).toNat = 0x50 + 5 * b.toNat := by
  have h := b.isLt
  have h5 : (5 : Word).toNat = 5 := rfl
  have h80 : (0x50 : Word).toNat = 0x50 := rfl
  rw [glyphAddr, BitVec.toNat_add, BitVec.toNat_mul, zextByte_toNat, h5, h80]
  omega

@[simp] theorem keyIndex_val (b : Byte) : (keyIndex b).val = b.toNat % 16 := by
  simp [keyIndex]

@[simp] theorem keyByte_toNat (k : RegIdx) : (keyByte k).toNat = k.val := by
  have h := k.isLt
  simp only [keyByte, BitVec.toNat_ofNat]
  omega

@[simp] theorem decimalDigits_length (b : Byte) : (decimalDigits b).length = 3 := rfl

theorem State.regBlock_length (s : State) (x : RegIdx) : (s.regBlock x).length = x.val + 1 := by
  have h := x.isLt
  simp only [State.regBlock, List.length_take, Vector.length_toList]
  omega

theorem State.regBlock_getElem (s : State) (x : RegIdx) (k : Nat) (h : k < (s.regBlock x).length) :
    (s.regBlock x)[k] = s.readV ⟨k, by rw [State.regBlock_length] at h; omega⟩ := by
  simp [State.regBlock, State.readV]

/-- Register `y` after a block load (R145). -/
theorem State.readV_regsFromMem (s : State) (x y : RegIdx) :
    (s.setVs (s.regsFromMem x)).readV y =
      if y ≤ x then s.memRead (s.effAddr y.val) else s.readV y := by
  simp [State.readV, State.regsFromMem, State.setVs]

/-! ### Keypad (R173, R177) -/

theorem State.lowestPressedKey_none {s : State} :
    s.lowestPressedKey = none ↔ ∀ k, s.keyPressed k = false := by
  simp [State.lowestPressedKey, List.find?_eq_none]

/-- The key found is pressed and no lower-numbered key is. -/
theorem State.lowestPressedKey_some {s : State} {k : RegIdx} :
    s.lowestPressedKey = some k ↔ s.keyPressed k = true ∧ ∀ j, j < k → s.keyPressed j = false := by
  have sound : ∀ {j : RegIdx}, s.lowestPressedKey = some j →
      s.keyPressed j = true ∧ ∀ i, i < j → s.keyPressed i = false := by
    intro j h
    rw [State.lowestPressedKey, List.find?_eq_some_iff_getElem] at h
    obtain ⟨hj, n, hn, he, hlt⟩ := h
    have hnj : n = j.val := by simpa using congrArg Fin.val he
    refine ⟨hj, fun i hi => ?_⟩
    have hin : i.val < n := hnj ▸ Fin.lt_def.1 hi
    simpa using hlt i.val hin
  refine ⟨sound, fun ⟨hk, hlt⟩ => ?_⟩
  cases hf : s.lowestPressedKey with
  | none => simp [State.lowestPressedKey_none.1 hf k] at hk
  | some j =>
    obtain ⟨hj, hlj⟩ := sound hf
    rcases Nat.lt_trichotomy j.val k.val with h | h | h
    · simp [hlt j h] at hj
    · exact congrArg some (Fin.ext h)
    · simp [hlj k h] at hk

/-! ### The external operations -/

/-- A tick lowers a positive counter by one and leaves 0 alone (R210). -/
theorem tickCounter_toNat (b : Byte) : (tickCounter b).toNat = b.toNat - 1 := by
  have h := b.isLt
  unfold tickCounter
  split
  · have h1 : (1 : Byte).toNat = 1 := rfl
    rw [BitVec.toNat_sub, h1]
    omega
  · omega

/-- A sequence of operations in two parts. -/
theorem runOps_append (ops ops' : List AgentOp) (s t : State) (h : runOps ops s = .next t) :
    runOps (ops ++ ops') s = runOps ops' t := by
  induction ops generalizing s with
  | nil =>
    cases h
    rfl
  | cons op ops ih =>
    simp only [runOps, List.cons_append] at h ⊢
    cases hs : op.apply s with
    | next u =>
      rw [hs] at h
      exact ih u h
    | fault r => exact nomatch r
    | refused r =>
      rw [hs] at h
      cases h

end Sys2Proof.Machine
end

