-- ==== Sys2Proof/Laws/Exec.lean ====
section
/-! SUPPORT. What `exec` answers for each instruction, by definition, and what a step is, so that no later proof unfolds the
dispatch or the step. -/

namespace Sys2Proof.Machine

/-! ### The answer of each arm, in the opcode table's order -/

@[simp] theorem exec_cls (s : State) : exec .cls s = .next (s.setFb Framebuffer.clear) := rfl
@[simp] theorem exec_ret (s : State) : exec .ret s = .next (s.popped.setPc s.popValue) := rfl
@[simp] theorem exec_jp (nnn : Addr12) (s : State) : exec (.jp nnn) s = .next (s.setPc (addrImm nnn)) := rfl
@[simp] theorem exec_call (nnn : Addr12) (s : State) :
    exec (.call nnn) s = .next ((s.push s.pc).setPc (addrImm nnn)) := rfl
@[simp] theorem exec_seImm (x : RegIdx) (kk : Byte) (s : State) :
    exec (.seImm x kk) s = .next (s.skipIf (s.readV x == kk)) := rfl
@[simp] theorem exec_sneImm (x : RegIdx) (kk : Byte) (s : State) :
    exec (.sneImm x kk) s = .next (s.skipIf (s.readV x != kk)) := rfl
@[simp] theorem exec_seReg (x y : RegIdx) (s : State) :
    exec (.seReg x y) s = .next (s.skipIf (s.readV x == s.readV y)) := rfl
@[simp] theorem exec_ldImm (x : RegIdx) (kk : Byte) (s : State) : exec (.ldImm x kk) s = .next (s.writeV x kk) := rfl
@[simp] theorem exec_addImm (x : RegIdx) (kk : Byte) (s : State) :
    exec (.addImm x kk) s = .next (s.writeV x (s.readV x + kk)) := rfl
@[simp] theorem exec_ldReg (x y : RegIdx) (s : State) : exec (.ldReg x y) s = .next (s.writeV x (s.readV y)) := rfl
@[simp] theorem exec_orReg (x y : RegIdx) (s : State) :
    exec (.orReg x y) s = .next (s.writeV x (s.readV x ||| s.readV y)) := rfl
@[simp] theorem exec_andReg (x y : RegIdx) (s : State) :
    exec (.andReg x y) s = .next (s.writeV x (s.readV x &&& s.readV y)) := rfl
@[simp] theorem exec_xorReg (x y : RegIdx) (s : State) :
    exec (.xorReg x y) s = .next (s.writeV x (s.readV x ^^^ s.readV y)) := rfl
@[simp] theorem exec_addReg (x y : RegIdx) (s : State) :
    exec (.addReg x y) s = .next (s.writeFlagThenResult x (carryFlag (s.readV x) (s.readV y)) (s.readV x + s.readV y)) := rfl
@[simp] theorem exec_sub (x y : RegIdx) (s : State) :
    exec (.sub x y) s = .next (s.writeFlagThenResult x (greaterFlag (s.readV x) (s.readV y)) (s.readV x - s.readV y)) := rfl
@[simp] theorem exec_shr (x y : RegIdx) (s : State) :
    exec (.shr x y) s = .next (s.writeFlagThenResult x (shrFlag (s.readV x)) (s.readV x >>> 1)) := rfl
@[simp] theorem exec_subn (x y : RegIdx) (s : State) :
    exec (.subn x y) s = .next (s.writeFlagThenResult x (greaterFlag (s.readV y) (s.readV x)) (s.readV y - s.readV x)) := rfl
@[simp] theorem exec_shl (x y : RegIdx) (s : State) :
    exec (.shl x y) s = .next (s.writeFlagThenResult x (shlFlag (s.readV x)) (s.readV x <<< 1)) := rfl
@[simp] theorem exec_sneReg (x y : RegIdx) (s : State) :
    exec (.sneReg x y) s = .next (s.skipIf (s.readV x != s.readV y)) := rfl
@[simp] theorem exec_ldI (nnn : Addr12) (s : State) : exec (.ldI nnn) s = .next (s.setI (addrImm nnn)) := rfl
@[simp] theorem exec_jpV0 (nnn : Addr12) (s : State) :
    exec (.jpV0 nnn) s = .next (s.setPc (zextByte (s.readV 0) + addrImm nnn)) := rfl
@[simp] theorem exec_rnd (x : RegIdx) (kk : Byte) (s : State) :
    exec (.rnd x kk) s = .next (s.drawn.writeV x (maskedRandom s.nextRandomByte kk)) := rfl
@[simp] theorem exec_drw (x y : RegIdx) (n : Nibble) (s : State) :
    exec (.drw x y n) s = .next ((s.setFb (s.drawResult x y n).1).writeV flagReg (flagByte (s.drawResult x y n).2)) := rfl
@[simp] theorem exec_skp (x : RegIdx) (s : State) :
    exec (.skp x) s = .next (s.skipIf (s.keyPressed (keyIndex (s.readV x)))) := rfl
@[simp] theorem exec_sknp (x : RegIdx) (s : State) :
    exec (.sknp x) s = .next (s.skipIf (!s.keyPressed (keyIndex (s.readV x)))) := rfl
@[simp] theorem exec_ldVxDt (x : RegIdx) (s : State) : exec (.ldVxDt x) s = .next (s.writeV x s.dt) := rfl
@[simp] theorem exec_ldDtVx (x : RegIdx) (s : State) : exec (.ldDtVx x) s = .next (s.setDt (s.readV x)) := rfl
@[simp] theorem exec_ldStVx (x : RegIdx) (s : State) : exec (.ldStVx x) s = .next (s.setSt (s.readV x)) := rfl
@[simp] theorem exec_addI (x : RegIdx) (s : State) :
    exec (.addI x) s = .next (s.setI (s.i + zextByte (s.readV x))) := rfl
@[simp] theorem exec_ldF (x : RegIdx) (s : State) : exec (.ldF x) s = .next (s.setI (glyphAddr (s.readV x))) := rfl
@[simp] theorem exec_ldB (x : RegIdx) (s : State) :
    exec (.ldB x) s = .next (s.memWriteBytes (s.effAddr 0) (decimalDigits (s.readV x))) := rfl
@[simp] theorem exec_stRegs (x : RegIdx) (s : State) :
    exec (.stRegs x) s = .next (s.memWriteBytes (s.effAddr 0) (s.regBlock x)) := rfl
@[simp] theorem exec_ldRegs (x : RegIdx) (s : State) : exec (.ldRegs x) s = .next (s.setVs (s.regsFromMem x)) := rfl
@[simp] theorem exec_nopUnmatched (w : Word) (s : State) : exec (.nopUnmatched w) s = .next s := rfl

/-- Fx0A with a key pressed (R173). -/
theorem exec_ldVxK_pressed {s : State} {k : RegIdx} (x : RegIdx) (h : s.lowestPressedKey = some k) :
    exec (.ldVxK x) s = .next (s.writeV x (keyByte k)) := by
  simp [exec, execLdVxK, h]

/-- Fx0A with no key pressed (R173). -/
theorem exec_ldVxK_waiting {s : State} (x : RegIdx) (h : s.lowestPressedKey = none) :
    exec (.ldVxK x) s = .next s.rewindPc := by
  simp [exec, execLdVxK, h]

/-- What Fx0A can answer, whatever the keypad (R173). -/
theorem exec_ldVxK_cases {x : RegIdx} {s t : State} (h : exec (.ldVxK x) s = .next t) :
    (∃ k, t = s.writeV x (keyByte k)) ∨ t = s.rewindPc := by
  cases hk : s.lowestPressedKey with
  | some k =>
    rw [exec_ldVxK_pressed x hk] at h
    exact .inl ⟨k, (Host.Outcome.next.inj h).symm⟩
  | none =>
    rw [exec_ldVxK_waiting x hk] at h
    exact .inr (Host.Outcome.next.inj h).symm

/-! ### Steps -/

/-- One step, with the advance written out (R71). -/
theorem step_eq (s : State) : step s = exec (decodeWord s.fetchWord) { s with pc := s.pc + 2 } := rfl

/-- A run of the core stays in a state whose step leads back to it. -/
theorem run_of_step_self {s : State} (h : step s = .next s) (n : Nat) :
    Host.Core.run Sys2Proof.core n s = .next s := by
  induction n with
  | zero => rfl
  | succ n ih =>
    have h' : Sys2Proof.core.step s = .next s := h
    simp [Host.Core.run, h', ih]

end Sys2Proof.Machine
end

