-- ==== Sys2Proof/Laws/PerInstr.lean ====
section
/-! SUPPORT. Statements made of each instruction as syntax, one lemma per constructor of `Instr`. -/

namespace Sys2Proof.Laws

/-- A row of the opcode table that selects the instruction's encoded word and bears its mnemonic; for the fallback row,
the word is one that no row selects (spec/30_encoding.md R75, R77). -/
def RowSelects.Statement (i : Instr) : Prop :=
  i.wf = true →
    (∃ r ∈ opcodeRows, r.mnemonic = i.mnemonic ∧ r.selects (encodeWord i) = true) ∨
    (i.mnemonic = "NOP_UNMATCHED" ∧ isUnmatched (encodeWord i) = true)

/-- A row over whole-nibble mask and code selects a word when its four nibbles do. -/
theorem RowSelects.of_nibbles {m : String} {mask code : Word} {w : Word} (hr : ⟨m, mask, code⟩ ∈ opcodeRows)
    (h : w &&& mask = code) : ∃ r ∈ opcodeRows, r.mnemonic = m ∧ r.selects w = true :=
  ⟨_, hr, rfl, by simp [OpcodeRow.selects, h]⟩

/-- Format `A` under the mask 0xF000: only `op` is compared. -/
theorem RowSelects.maskA (op : Nibble) (nnn : Addr12) :
    encodeA op nnn &&& 0xF000 = encodeA op 0 := by
  have h : (encodeA op nnn : Word) &&& ((0xF : Nibble) ++ (0 : BitVec 12)) = (op &&& 0xF) ++ (nnn &&& 0) :=
    BitVec.and_append
  have hop : op &&& 0xF = op := BitVec.and_allOnes
  have hn : nnn &&& 0 = 0 := BitVec.and_zero
  rw [hop, hn] at h
  exact h

/-- Formats `XK` and `XYN` under the mask 0xF000: only `op` is compared. -/
theorem RowSelects.maskOp (op : Nibble) (x : RegIdx) (kk : Byte) :
    encodeXK op x kk &&& 0xF000 = encodeA op 0 :=
  RowSelects.maskA op (BitVec.ofFin (w := 4) x ++ kk)

/-- Format `XY` under the mask 0xF00F: `op` and `n` are compared. -/
theorem RowSelects.maskXY (op : Nibble) (x y : RegIdx) (n : Nibble) :
    encodeXYN op x y n &&& 0xF00F = encodeXYN op 0 0 n := by
  have h := encodeXYN_and op 0xF x 0 y 0 n 0xF
  have hop : op &&& 0xF = op := BitVec.and_allOnes
  have hn : n &&& 0xF = n := BitVec.and_allOnes
  have hz : ∀ z : RegIdx, (BitVec.ofFin (w := 4) z &&& BitVec.ofFin (w := 4) 0).toFin = 0 := by decide
  rw [hop, hn, hz, hz] at h
  exact h

/-- Format `XS` under the mask 0xF0FF: `op` and `kk` are compared. -/
theorem RowSelects.maskXS (op : Nibble) (x : RegIdx) (kk : Byte) :
    encodeXK op x kk &&& 0xF0FF = encodeXK op 0 kk := by
  have h : (encodeXK op x kk : Word) &&& ((0xF : Nibble) ++ (0x0FF : BitVec 12)) =
      (op &&& 0xF) ++ ((BitVec.ofFin (w := 4) x ++ kk : BitVec 12) &&& 0x0FF) := BitVec.and_append
  have h2 : (BitVec.ofFin (w := 4) x ++ kk : BitVec 12) &&& ((0 : Nibble) ++ (0xFF : Byte)) =
      (BitVec.ofFin (w := 4) x &&& 0) ++ (kk &&& 0xFF) := BitVec.and_append
  have hop : op &&& 0xF = op := BitVec.and_allOnes
  have hk : kk &&& 0xFF = kk := BitVec.and_allOnes
  have hx : BitVec.ofFin (w := 4) x &&& 0 = 0 := BitVec.and_zero
  rw [hk, hx] at h2
  rw [hop] at h
  exact h.trans (congrArg (fun z : BitVec 12 => (op ++ z : Word)) h2)

theorem RowSelects.cls : RowSelects.Statement (.cls) :=
  fun _ => .inl (RowSelects.of_nibbles (m := "CLS") (mask := 0xFFFF) (code := 0x00E0) (by decide) rfl)

theorem RowSelects.ret : RowSelects.Statement (.ret) :=
  fun _ => .inl (RowSelects.of_nibbles (m := "RET") (mask := 0xFFFF) (code := 0x00EE) (by decide) rfl)

theorem RowSelects.jp (nnn : Addr12) : RowSelects.Statement (.jp nnn) :=
  fun _ => .inl (RowSelects.of_nibbles (m := "JP") (mask := 0xF000) (code := 0x1000) (by decide) (RowSelects.maskA 0x1 nnn))

theorem RowSelects.call (nnn : Addr12) : RowSelects.Statement (.call nnn) :=
  fun _ => .inl (RowSelects.of_nibbles (m := "CALL") (mask := 0xF000) (code := 0x2000) (by decide) (RowSelects.maskA 0x2 nnn))

theorem RowSelects.seImm (x : RegIdx) (kk : Byte) : RowSelects.Statement (.seImm x kk) :=
  fun _ => .inl (RowSelects.of_nibbles (m := "SE_IMM") (mask := 0xF000) (code := 0x3000) (by decide) (RowSelects.maskOp 0x3 x kk))

theorem RowSelects.sneImm (x : RegIdx) (kk : Byte) : RowSelects.Statement (.sneImm x kk) :=
  fun _ => .inl (RowSelects.of_nibbles (m := "SNE_IMM") (mask := 0xF000) (code := 0x4000) (by decide) (RowSelects.maskOp 0x4 x kk))

theorem RowSelects.seReg (x : RegIdx) (y : RegIdx) : RowSelects.Statement (.seReg x y) :=
  fun _ => .inl (RowSelects.of_nibbles (m := "SE_REG") (mask := 0xF00F) (code := 0x5000) (by decide) (RowSelects.maskXY 0x5 x y 0x0))

theorem RowSelects.ldImm (x : RegIdx) (kk : Byte) : RowSelects.Statement (.ldImm x kk) :=
  fun _ => .inl (RowSelects.of_nibbles (m := "LD_IMM") (mask := 0xF000) (code := 0x6000) (by decide) (RowSelects.maskOp 0x6 x kk))

theorem RowSelects.addImm (x : RegIdx) (kk : Byte) : RowSelects.Statement (.addImm x kk) :=
  fun _ => .inl (RowSelects.of_nibbles (m := "ADD_IMM") (mask := 0xF000) (code := 0x7000) (by decide) (RowSelects.maskOp 0x7 x kk))

theorem RowSelects.ldReg (x : RegIdx) (y : RegIdx) : RowSelects.Statement (.ldReg x y) :=
  fun _ => .inl (RowSelects.of_nibbles (m := "LD_REG") (mask := 0xF00F) (code := 0x8000) (by decide) (RowSelects.maskXY 0x8 x y 0x0))

theorem RowSelects.orReg (x : RegIdx) (y : RegIdx) : RowSelects.Statement (.orReg x y) :=
  fun _ => .inl (RowSelects.of_nibbles (m := "OR") (mask := 0xF00F) (code := 0x8001) (by decide) (RowSelects.maskXY 0x8 x y 0x1))

theorem RowSelects.andReg (x : RegIdx) (y : RegIdx) : RowSelects.Statement (.andReg x y) :=
  fun _ => .inl (RowSelects.of_nibbles (m := "AND") (mask := 0xF00F) (code := 0x8002) (by decide) (RowSelects.maskXY 0x8 x y 0x2))

theorem RowSelects.xorReg (x : RegIdx) (y : RegIdx) : RowSelects.Statement (.xorReg x y) :=
  fun _ => .inl (RowSelects.of_nibbles (m := "XOR") (mask := 0xF00F) (code := 0x8003) (by decide) (RowSelects.maskXY 0x8 x y 0x3))

theorem RowSelects.addReg (x : RegIdx) (y : RegIdx) : RowSelects.Statement (.addReg x y) :=
  fun _ => .inl (RowSelects.of_nibbles (m := "ADD_REG") (mask := 0xF00F) (code := 0x8004) (by decide) (RowSelects.maskXY 0x8 x y 0x4))

theorem RowSelects.sub (x : RegIdx) (y : RegIdx) : RowSelects.Statement (.sub x y) :=
  fun _ => .inl (RowSelects.of_nibbles (m := "SUB") (mask := 0xF00F) (code := 0x8005) (by decide) (RowSelects.maskXY 0x8 x y 0x5))

theorem RowSelects.shr (x : RegIdx) (y : RegIdx) : RowSelects.Statement (.shr x y) :=
  fun _ => .inl (RowSelects.of_nibbles (m := "SHR") (mask := 0xF00F) (code := 0x8006) (by decide) (RowSelects.maskXY 0x8 x y 0x6))

theorem RowSelects.subn (x : RegIdx) (y : RegIdx) : RowSelects.Statement (.subn x y) :=
  fun _ => .inl (RowSelects.of_nibbles (m := "SUBN") (mask := 0xF00F) (code := 0x8007) (by decide) (RowSelects.maskXY 0x8 x y 0x7))

theorem RowSelects.shl (x : RegIdx) (y : RegIdx) : RowSelects.Statement (.shl x y) :=
  fun _ => .inl (RowSelects.of_nibbles (m := "SHL") (mask := 0xF00F) (code := 0x800E) (by decide) (RowSelects.maskXY 0x8 x y 0xE))

theorem RowSelects.sneReg (x : RegIdx) (y : RegIdx) : RowSelects.Statement (.sneReg x y) :=
  fun _ => .inl (RowSelects.of_nibbles (m := "SNE_REG") (mask := 0xF00F) (code := 0x9000) (by decide) (RowSelects.maskXY 0x9 x y 0x0))

theorem RowSelects.ldI (nnn : Addr12) : RowSelects.Statement (.ldI nnn) :=
  fun _ => .inl (RowSelects.of_nibbles (m := "LD_I") (mask := 0xF000) (code := 0xA000) (by decide) (RowSelects.maskA 0xA nnn))

theorem RowSelects.jpV0 (nnn : Addr12) : RowSelects.Statement (.jpV0 nnn) :=
  fun _ => .inl (RowSelects.of_nibbles (m := "JP_V0") (mask := 0xF000) (code := 0xB000) (by decide) (RowSelects.maskA 0xB nnn))

theorem RowSelects.rnd (x : RegIdx) (kk : Byte) : RowSelects.Statement (.rnd x kk) :=
  fun _ => .inl (RowSelects.of_nibbles (m := "RND") (mask := 0xF000) (code := 0xC000) (by decide) (RowSelects.maskOp 0xC x kk))

theorem RowSelects.drw (x : RegIdx) (y : RegIdx) (n : Nibble) : RowSelects.Statement (.drw x y n) :=
  fun _ => .inl (RowSelects.of_nibbles (m := "DRW") (mask := 0xF000) (code := 0xD000) (by decide) (RowSelects.maskOp 0xD x (BitVec.ofFin (w := 4) y ++ n)))

theorem RowSelects.skp (x : RegIdx) : RowSelects.Statement (.skp x) :=
  fun _ => .inl (RowSelects.of_nibbles (m := "SKP") (mask := 0xF0FF) (code := 0xE09E) (by decide) (RowSelects.maskXS 0xE x 0x9E))

theorem RowSelects.sknp (x : RegIdx) : RowSelects.Statement (.sknp x) :=
  fun _ => .inl (RowSelects.of_nibbles (m := "SKNP") (mask := 0xF0FF) (code := 0xE0A1) (by decide) (RowSelects.maskXS 0xE x 0xA1))

theorem RowSelects.ldVxDt (x : RegIdx) : RowSelects.Statement (.ldVxDt x) :=
  fun _ => .inl (RowSelects.of_nibbles (m := "LD_VX_DT") (mask := 0xF0FF) (code := 0xF007) (by decide) (RowSelects.maskXS 0xF x 0x07))

theorem RowSelects.ldVxK (x : RegIdx) : RowSelects.Statement (.ldVxK x) :=
  fun _ => .inl (RowSelects.of_nibbles (m := "LD_VX_K") (mask := 0xF0FF) (code := 0xF00A) (by decide) (RowSelects.maskXS 0xF x 0x0A))

theorem RowSelects.ldDtVx (x : RegIdx) : RowSelects.Statement (.ldDtVx x) :=
  fun _ => .inl (RowSelects.of_nibbles (m := "LD_DT_VX") (mask := 0xF0FF) (code := 0xF015) (by decide) (RowSelects.maskXS 0xF x 0x15))

theorem RowSelects.ldStVx (x : RegIdx) : RowSelects.Statement (.ldStVx x) :=
  fun _ => .inl (RowSelects.of_nibbles (m := "LD_ST_VX") (mask := 0xF0FF) (code := 0xF018) (by decide) (RowSelects.maskXS 0xF x 0x18))

theorem RowSelects.addI (x : RegIdx) : RowSelects.Statement (.addI x) :=
  fun _ => .inl (RowSelects.of_nibbles (m := "ADD_I") (mask := 0xF0FF) (code := 0xF01E) (by decide) (RowSelects.maskXS 0xF x 0x1E))

theorem RowSelects.ldF (x : RegIdx) : RowSelects.Statement (.ldF x) :=
  fun _ => .inl (RowSelects.of_nibbles (m := "LD_F") (mask := 0xF0FF) (code := 0xF029) (by decide) (RowSelects.maskXS 0xF x 0x29))

theorem RowSelects.ldB (x : RegIdx) : RowSelects.Statement (.ldB x) :=
  fun _ => .inl (RowSelects.of_nibbles (m := "LD_B") (mask := 0xF0FF) (code := 0xF033) (by decide) (RowSelects.maskXS 0xF x 0x33))

theorem RowSelects.stRegs (x : RegIdx) : RowSelects.Statement (.stRegs x) :=
  fun _ => .inl (RowSelects.of_nibbles (m := "ST_REGS") (mask := 0xF0FF) (code := 0xF055) (by decide) (RowSelects.maskXS 0xF x 0x55))

theorem RowSelects.ldRegs (x : RegIdx) : RowSelects.Statement (.ldRegs x) :=
  fun _ => .inl (RowSelects.of_nibbles (m := "LD_REGS") (mask := 0xF0FF) (code := 0xF065) (by decide) (RowSelects.maskXS 0xF x 0x65))

theorem RowSelects.nopUnmatched (w : Word) : RowSelects.Statement (.nopUnmatched w) :=
  fun h => .inr ⟨rfl, h⟩
end Sys2Proof.Laws
end

