-- ==== Sys2Proof/Tests/Slice0.lean ====
section
/-! SUPPORT. The model's own tests. Every expected value is taken from spec/95_test_vectors.md (the vector is named in the
docstring) or written out by hand from the encodings and the font table of the spec; none is the model's own answer.
After them, a witness for the hypotheses of each obligation. -/

namespace Sys2Proof.Tests

open Sys2Proof.Machine

/-! ### Building small states and checking one step -/

/-- The state with the instruction word `w` stored at `PC`. -/
def fetching (w : Nat) (s : State) : State := s.withFetchWord 16 w

/-- The state with the listed registers. -/
def regs (l : List (RegIdx × Byte)) (s : State) : State := l.foldl (fun u p => u.writeV p.1 p.2) s

/-- The state with the listed bytes of memory from `a` on. -/
def bytes (a : Nat) (l : List Byte) (s : State) : State := s.memWriteBytes a l

/-- The state with the listed cells, each (row, column), flipped. -/
def cells (l : List (Nat × Nat)) (s : State) : State :=
  s.setFb (l.foldl (fun fb c => Framebuffer.flip fb c.1 c.2) s.fb)

/-- The state with one key pressed. -/
def pressed (k : RegIdx) (s : State) : State := keyWrite k true s

/-- Whether one step leads to a state with a property. -/
def after (s : State) (p : State → Bool) : Bool :=
  match step s with
  | .next u => p u
  | .fault r => nomatch r
  | .refused _ => false

/-- Whether one step leads from `s` to `t` in every element but the framebuffer, which is compared only where a test is
about it: "everything not listed is unchanged". -/
def stepsTo (s t : State) : Bool :=
  after s fun u => u.v == t.v && u.i == t.i && u.pc == t.pc && u.stack == t.stack && u.sp == t.sp && u.dt == t.dt &&
    u.st == t.st && u.key == t.key && u.mem == t.mem && u.draws == t.draws

/-- The listed cells of the framebuffer. -/
def lit (s : State) (l : List (Nat × Nat)) : List Bool := l.map fun c => Framebuffer.cell s.fb c.1 c.2

/-! ### Well-formedness -/

/-- A word that a row selects is no unmatched word (R77): CLS, JP, LD_REG, Fx65. -/
theorem test_wf_refuses_matched_words :
    Instr.wf (.nopUnmatched 0x00E0) = false ∧ Instr.wf (.nopUnmatched 0x1234) = false ∧
    Instr.wf (.nopUnmatched 0x8120) = false ∧ Instr.wf (.nopUnmatched 0xF265) = false := by decide

/-- Words of the areas R78 and R76 leave unmatched, and an ordinary instruction. -/
theorem test_wf_accepts :
    Instr.wf (.nopUnmatched 0x0000) = true ∧ Instr.wf (.nopUnmatched 0x5121) = true ∧
    Instr.wf (.nopUnmatched 0x8128) = true ∧ Instr.wf (.nopUnmatched 0xFFFF) = true ∧
    Instr.wf (.addReg 15 15) = true := by decide

/-! ### Decoding words written out bit by bit (R72, R73, R75) -/

theorem test_decode_control :
    decodeWord 0b0000000011100000 = .cls ∧
    decodeWord 0b0000000011101110 = .ret ∧
    decodeWord 0b0001101010111100 = .jp 0xABC ∧
    decodeWord 0b0010001100000001 = .call 0x301 ∧
    decodeWord 0b0011101001010101 = .seImm 0xA 0x55 ∧
    decodeWord 0b0100101101011010 = .sneImm 0xB 0x5A ∧
    decodeWord 0b0101000100100000 = .seReg 0x1 0x2 ∧
    decodeWord 0b1001001111000000 = .sneReg 0x3 0xC ∧
    decodeWord 0b1011111111111110 = .jpV0 0xFFE := by decide

theorem test_decode_register_alu :
    decodeWord 0b0110000010011100 = .ldImm 0x0 0x9C ∧
    decodeWord 0b0111111100000001 = .addImm 0xF 0x01 ∧
    decodeWord 0b1000000110100000 = .ldReg 0x1 0xA ∧
    decodeWord 0b1000000110100001 = .orReg 0x1 0xA ∧
    decodeWord 0b1000000110100010 = .andReg 0x1 0xA ∧
    decodeWord 0b1000000110100011 = .xorReg 0x1 0xA ∧
    decodeWord 0b1000000111110100 = .addReg 0x1 0xF ∧
    decodeWord 0b1000111100010101 = .sub 0xF 0x1 ∧
    decodeWord 0b1000001100100110 = .shr 0x3 0x2 ∧
    decodeWord 0b1000000010010111 = .subn 0x0 0x9 ∧
    decodeWord 0b1000001100101110 = .shl 0x3 0x2 ∧
    decodeWord 0b1100000100001111 = .rnd 0x1 0x0F := by decide

theorem test_decode_address_memory :
    decodeWord 0b1010000100100011 = .ldI 0x123 ∧
    decodeWord 0b1111001000011110 = .addI 0x2 ∧
    decodeWord 0b1111001000101001 = .ldF 0x2 ∧
    decodeWord 0b1111000000110011 = .ldB 0x0 ∧
    decodeWord 0b1111111101010101 = .stRegs 0xF ∧
    decodeWord 0b1111001001100101 = .ldRegs 0x2 := by decide

theorem test_decode_display_keypad_timers :
    decodeWord 0b1101000000010101 = .drw 0x0 0x1 0x5 ∧
    decodeWord 0b1110000110011110 = .skp 0x1 ∧
    decodeWord 0b1110010110100001 = .sknp 0x5 ∧
    decodeWord 0b1111001100000111 = .ldVxDt 0x3 ∧
    decodeWord 0b1111001100001010 = .ldVxK 0x3 ∧
    decodeWord 0b1111001100010101 = .ldDtVx 0x3 ∧
    decodeWord 0b1111001100011000 = .ldStVx 0x3 := by decide

/-- One word for each unmatched area that T1 to T13 name. -/
theorem test_decode_unmatched :
    decodeWord 0x0000 = .nopUnmatched 0x0000 ∧ decodeWord 0x01E0 = .nopUnmatched 0x01E0 ∧
    decodeWord 0x00EF = .nopUnmatched 0x00EF ∧ decodeWord 0x0123 = .nopUnmatched 0x0123 ∧
    decodeWord 0x5121 = .nopUnmatched 0x5121 ∧ decodeWord 0x9121 = .nopUnmatched 0x9121 ∧
    decodeWord 0x8128 = .nopUnmatched 0x8128 ∧ decodeWord 0x812F = .nopUnmatched 0x812F ∧
    decodeWord 0xE09F = .nopUnmatched 0xE09F ∧ decodeWord 0xF000 = .nopUnmatched 0xF000 ∧
    decodeWord 0xF066 = .nopUnmatched 0xF066 ∧ decodeWord 0xFFFF = .nopUnmatched 0xFFFF := by decide

/-- A truncated instruction is rejected by name (R70). -/
theorem test_decode_truncated : decode [0x12] = .error .truncated ∧ decode [] = .error .truncated := ⟨rfl, rfl⟩

/-- The table's numbering, big-endian in memory (R53), and bits above the row's 16. -/
theorem test_decode_table_word :
    decodeTableWord 16 0x6A55 = some (.ldImm 0xA 0x55) ∧ decodeTableWord 24 0x6A55 = none := by decide

/-- The encoder, on words of the test vectors. -/
theorem test_encode :
    encode (.ldImm 0 0x9C) = [0x60, 0x9C] ∧ encode (.drw 0 1 1) = [0xD0, 0x11] ∧
    encode (.ldB 0) = [0xF0, 0x33] ∧ encode (.jp 0x20C) = [0x12, 0x0C] := by decide


/-! ### Fetch and unmatched words -/

/-- T1: from reset with nothing loaded. -/
theorem test_unmatched_zero_word :
    stepsTo (fetching 0x0000 State.reset)
      ((fetching 0x0000 State.reset).setPc 0x0202) = true := by decide

/-- T5. -/
theorem test_unmatched_low_nibble :
    stepsTo (fetching 0x5121 (regs [(0x1, 0x07), (0x2, 0x07)] State.reset))
      ((fetching 0x5121 (regs [(0x1, 0x07), (0x2, 0x07)] State.reset)).setPc 0x0202) = true := by decide

/-- T14: a word that straddles the end of memory. -/
theorem test_fetch_straddles_memory_end :
    after (bytes 0xFFF [0x12] (bytes 0x000 [0x34] (State.reset.setPc 0x0FFF))) (fun t => t.pc == 0x0234) = true := by
  decide

/-- T16: a fetch through an alias of 0x0200. -/
theorem test_fetch_alias :
    after (bytes 0x200 [0x61, 0x2A] (State.reset.setPc 0x1200)) (fun t => t.readV 1 == 0x2A && t.pc == 0x1202) = true := by
  decide


/-! ### Control flow -/

/-- T20. -/
theorem test_jp :
    stepsTo (fetching 0x1ABC State.reset)
      ((fetching 0x1ABC State.reset).setPc 0x0ABC) = true := by decide

/-- T24: the sixteenth call wraps the stack pointer. -/
theorem test_call_wraps_stack_pointer :
    after (fetching 0x2300 { State.reset with sp := 15 })
      (fun t => t.stack[15] == 0x0202 && t.stack[0] == 0 && t.sp == 0 && t.pc == 0x0300) = true := by decide

/-- T25: the return address wraps at 16 bits. -/
theorem test_call_return_address_wraps :
    after (fetching 0x2300 (State.reset.setPc 0xFFFE))
      (fun t => t.stack[0] == 0x0000 && t.sp == 1 && t.pc == 0x0300) = true := by decide

/-- T26. -/
theorem test_ret :
    after (fetching 0x00EE { State.reset with sp := 1, stack := State.reset.stack.set 0 0x0ABC })
      (fun t => t.sp == 0 && t.pc == 0x0ABC && t.stack[0] == 0x0ABC) = true := by decide

/-- T27: underflow wraps. -/
theorem test_ret_underflow_wraps :
    after (fetching 0x00EE { State.reset with stack := State.reset.stack.set 15 0x0ABC })
      (fun t => t.sp == 15 && t.pc == 0x0ABC) = true := by decide

/-- T29. -/
theorem test_se_imm_taken :
    stepsTo (fetching 0x332A (regs [(0x3, 0x2A)] State.reset))
      ((fetching 0x332A (regs [(0x3, 0x2A)] State.reset)).setPc 0x0204) = true := by decide

/-- T30. -/
theorem test_se_imm_not_taken :
    stepsTo (fetching 0x332B (regs [(0x3, 0x2A)] State.reset))
      ((fetching 0x332B (regs [(0x3, 0x2A)] State.reset)).setPc 0x0202) = true := by decide

/-- T31. -/
theorem test_sne_imm_not_taken :
    stepsTo (fetching 0x432A (regs [(0x3, 0x2A)] State.reset))
      ((fetching 0x432A (regs [(0x3, 0x2A)] State.reset)).setPc 0x0202) = true := by decide

/-- T32. -/
theorem test_sne_imm_taken :
    stepsTo (fetching 0x432B (regs [(0x3, 0x2A)] State.reset))
      ((fetching 0x432B (regs [(0x3, 0x2A)] State.reset)).setPc 0x0204) = true := by decide

/-- T34. -/
theorem test_se_reg_taken :
    stepsTo (fetching 0x5120 (regs [(0x1, 0x07), (0x2, 0x07)] State.reset))
      ((fetching 0x5120 (regs [(0x1, 0x07), (0x2, 0x07)] State.reset)).setPc 0x0204) = true := by decide

/-- T35. -/
theorem test_se_reg_not_taken :
    stepsTo (fetching 0x5120 (regs [(0x1, 0x07), (0x2, 0x08)] State.reset))
      ((fetching 0x5120 (regs [(0x1, 0x07), (0x2, 0x08)] State.reset)).setPc 0x0202) = true := by decide

/-- T37. -/
theorem test_sne_reg_taken :
    stepsTo (fetching 0x9120 (regs [(0x1, 0x07), (0x2, 0x08)] State.reset))
      ((fetching 0x9120 (regs [(0x1, 0x07), (0x2, 0x08)] State.reset)).setPc 0x0204) = true := by decide

/-- T38. -/
theorem test_sne_reg_itself :
    stepsTo (fetching 0x9110 (regs [(0x1, 0x07)] State.reset))
      ((fetching 0x9110 (regs [(0x1, 0x07)] State.reset)).setPc 0x0202) = true := by decide

/-- T39: a skip wraps the program counter. -/
theorem test_skip_wraps :
    after (fetching 0x3000 (State.reset.setPc 0xFFFC)) (fun t => t.pc == 0x0000) = true := by decide

/-- T41. -/
theorem test_jp_v0_not_masked :
    stepsTo (fetching 0xBFFF (regs [(0x0, 0xFF)] State.reset))
      ((fetching 0xBFFF (regs [(0x0, 0xFF)] State.reset)).setPc 0x10FE) = true := by decide


/-! ### Register load, arithmetic, logic, shift, random -/

/-- T50. -/
theorem test_ld_imm :
    stepsTo (fetching 0x609C State.reset)
      ((regs [(0x0, 0x9C)] (fetching 0x609C State.reset)).setPc 0x0202) = true := by decide

/-- T51. -/
theorem test_ld_imm_flag_register :
    stepsTo (fetching 0x6F55 State.reset)
      ((regs [(0xF, 0x55)] (fetching 0x6F55 State.reset)).setPc 0x0202) = true := by decide

/-- T53. -/
theorem test_add_imm_wraps_without_flag :
    stepsTo (fetching 0x7001 (regs [(0x0, 0xFF)] State.reset))
      ((regs [(0x0, 0x00)] (fetching 0x7001 (regs [(0x0, 0xFF)] State.reset))).setPc 0x0202) = true := by decide

/-- T54. -/
theorem test_add_imm_flag_register :
    stepsTo (fetching 0x7F01 (regs [(0xF, 0xFF)] State.reset))
      ((regs [(0xF, 0x00)] (fetching 0x7F01 (regs [(0xF, 0xFF)] State.reset))).setPc 0x0202) = true := by decide

/-- T55. -/
theorem test_ld_reg :
    stepsTo (fetching 0x8010 (regs [(0x0, 0x11), (0x1, 0x22)] State.reset))
      ((regs [(0x0, 0x22)] (fetching 0x8010 (regs [(0x0, 0x11), (0x1, 0x22)] State.reset))).setPc 0x0202) = true := by decide

/-- T56. -/
theorem test_or_leaves_flag :
    stepsTo (fetching 0x8011 (regs [(0x0, 0xA5), (0x1, 0x5A), (0xF, 0x77)] State.reset))
      ((regs [(0x0, 0xFF)] (fetching 0x8011 (regs [(0x0, 0xA5), (0x1, 0x5A), (0xF, 0x77)] State.reset))).setPc 0x0202) = true := by decide

/-- T57. -/
theorem test_and :
    stepsTo (fetching 0x8012 (regs [(0x0, 0xA5), (0x1, 0xF0)] State.reset))
      ((regs [(0x0, 0xA0)] (fetching 0x8012 (regs [(0x0, 0xA5), (0x1, 0xF0)] State.reset))).setPc 0x0202) = true := by decide

/-- T58. -/
theorem test_xor :
    stepsTo (fetching 0x8013 (regs [(0x0, 0xA5), (0x1, 0xFF)] State.reset))
      ((regs [(0x0, 0x5A)] (fetching 0x8013 (regs [(0x0, 0xA5), (0x1, 0xFF)] State.reset))).setPc 0x0202) = true := by decide

/-- T61. -/
theorem test_add_reg_flag_as_operand :
    stepsTo (fetching 0x81F4 (regs [(0x1, 0xF0), (0xF, 0x20)] State.reset))
      ((regs [(0x1, 0x10), (0xF, 0x01)] (fetching 0x81F4 (regs [(0x1, 0xF0), (0xF, 0x20)] State.reset))).setPc 0x0202) = true := by decide

/-- T62. -/
theorem test_add_reg_flag_as_destination :
    stepsTo (fetching 0x8F14 (regs [(0xF, 0xF0), (0x1, 0x20)] State.reset))
      ((regs [(0xF, 0x10)] (fetching 0x8F14 (regs [(0xF, 0xF0), (0x1, 0x20)] State.reset))).setPc 0x0202) = true := by decide

/-- T65. -/
theorem test_sub_equal :
    stepsTo (fetching 0x8015 (regs [(0x0, 0x05), (0x1, 0x05)] State.reset))
      ((regs [(0x0, 0x00), (0xF, 0x00)] (fetching 0x8015 (regs [(0x0, 0x05), (0x1, 0x05)] State.reset))).setPc 0x0202) = true := by decide

/-- T68. -/
theorem test_sub_flag_as_destination :
    stepsTo (fetching 0x8F15 (regs [(0xF, 0x09), (0x1, 0x04)] State.reset))
      ((regs [(0xF, 0x05)] (fetching 0x8F15 (regs [(0xF, 0x09), (0x1, 0x04)] State.reset))).setPc 0x0202) = true := by decide

/-- T69. -/
theorem test_subn :
    stepsTo (fetching 0x8017 (regs [(0x0, 0x03), (0x1, 0x05)] State.reset))
      ((regs [(0x0, 0x02), (0xF, 0x01)] (fetching 0x8017 (regs [(0x0, 0x03), (0x1, 0x05)] State.reset))).setPc 0x0202) = true := by decide

/-- T71. -/
theorem test_subn_borrow :
    stepsTo (fetching 0x8017 (regs [(0x0, 0x01), (0x1, 0x00)] State.reset))
      ((regs [(0x0, 0xFF), (0xF, 0x00)] (fetching 0x8017 (regs [(0x0, 0x01), (0x1, 0x00)] State.reset))).setPc 0x0202) = true := by decide

/-- T74. -/
theorem test_shr_ignores_y :
    stepsTo (fetching 0x8016 (regs [(0x0, 0x04), (0x1, 0xFF)] State.reset))
      ((regs [(0x0, 0x02), (0xF, 0x00)] (fetching 0x8016 (regs [(0x0, 0x04), (0x1, 0xFF)] State.reset))).setPc 0x0202) = true := by decide

/-- T76. -/
theorem test_shr_flag_as_destination :
    stepsTo (fetching 0x8F06 (regs [(0xF, 0x05)] State.reset))
      ((regs [(0xF, 0x02)] (fetching 0x8F06 (regs [(0xF, 0x05)] State.reset))).setPc 0x0202) = true := by decide

/-- T77. -/
theorem test_shl :
    stepsTo (fetching 0x800E (regs [(0x0, 0xFF)] State.reset))
      ((regs [(0x0, 0xFE), (0xF, 0x01)] (fetching 0x800E (regs [(0x0, 0xFF)] State.reset))).setPc 0x0202) = true := by decide

/-- T80. -/
theorem test_shl_flag_as_destination :
    stepsTo (fetching 0x8F0E (regs [(0xF, 0x81)] State.reset))
      ((regs [(0xF, 0x02)] (fetching 0x8F0E (regs [(0xF, 0x81)] State.reset))).setPc 0x0202) = true := by decide

/-- T81 to T83: the masked byte, for the bytes the vectors give the generator. -/
theorem test_masked_random :
    maskedRandom 0x5A 0xFF = 0x5A ∧ maskedRandom 0xFF 0x00 = 0x00 ∧ maskedRandom 0xA7 0xF0 = 0xA0 := by decide

/-- T82: the draw happens with a mask of 0 as well; T84: no flag is written. -/
theorem test_rnd_draws_once :
    after (fetching 0xC100 (regs [(0xF, 0x77)] State.reset))
      (fun t => t.draws == 1 && t.readV 15 == 0x77 && t.pc == 0x0202) = true := by decide


/-! ### Address register and memory -/

/-- T90. -/
theorem test_ld_i :
    stepsTo (fetching 0xA123 (State.reset.setI 0xFFFF))
      ((((fetching 0xA123 (State.reset.setI 0xFFFF))).setI 0x0123).setPc 0x0202) = true := by decide

/-- T92. -/
theorem test_add_i_not_masked :
    stepsTo (fetching 0xF01E ((regs [(0x0, 0x01)] State.reset).setI 0x0FFF))
      ((((fetching 0xF01E ((regs [(0x0, 0x01)] State.reset).setI 0x0FFF))).setI 0x1000).setPc 0x0202) = true := by decide

/-- T93. -/
theorem test_add_i_wraps :
    stepsTo (fetching 0xF01E ((regs [(0x0, 0x02)] State.reset).setI 0xFFFF))
      ((((fetching 0xF01E ((regs [(0x0, 0x02)] State.reset).setI 0xFFFF))).setI 0x0001).setPc 0x0202) = true := by decide

/-- T96. -/
theorem test_ld_f_last_glyph :
    stepsTo (fetching 0xF029 (regs [(0x0, 0x0F)] State.reset))
      ((((fetching 0xF029 (regs [(0x0, 0x0F)] State.reset))).setI 0x009B).setPc 0x0202) = true := by decide

/-- T98. -/
theorem test_ld_f_all_bits :
    stepsTo (fetching 0xF029 (regs [(0x0, 0xFF)] State.reset))
      ((((fetching 0xF029 (regs [(0x0, 0xFF)] State.reset))).setI 0x054B).setPc 0x0202) = true := by decide

/-- S4: the digits of 156. -/
theorem test_ld_b_source_example :
    stepsTo (fetching 0xF033 ((regs [(0x0, 0x9C)] State.reset).setI 0x0300))
      ((bytes 0x300 [0x01, 0x05, 0x06] (fetching 0xF033 ((regs [(0x0, 0x9C)] State.reset).setI 0x0300))).setPc 0x0202) = true := by decide

/-- T104. -/
theorem test_ld_b_wraps_memory :
    stepsTo (fetching 0xF033 ((regs [(0x0, 0xEA)] State.reset).setI 0x0FFE))
      ((bytes 0x000 [0x04] (bytes 0xFFE [0x02, 0x03] (fetching 0xF033 ((regs [(0x0, 0xEA)] State.reset).setI 0x0FFE)))).setPc 0x0202) = true := by decide

/-- T106. -/
theorem test_st_regs_inclusive :
    stepsTo (fetching 0xF255 ((regs [(0x0, 0x11), (0x1, 0x22), (0x2, 0x33), (0x3, 0x44)] State.reset).setI 0x0300))
      ((bytes 0x300 [0x11, 0x22, 0x33] (fetching 0xF255 ((regs [(0x0, 0x11), (0x1, 0x22), (0x2, 0x33), (0x3, 0x44)] State.reset).setI 0x0300))).setPc 0x0202) = true := by decide

/-- T108, with the four registers 0 to 3 at 0x0FFE. -/
theorem test_st_regs_wraps_memory :
    stepsTo (fetching 0xF355 ((regs [(0x0, 0x10), (0x1, 0x11), (0x2, 0x12), (0x3, 0x13)] State.reset).setI 0x0FFE))
      ((bytes 0x000 [0x12, 0x13] (bytes 0xFFE [0x10, 0x11] (fetching 0xF355 ((regs [(0x0, 0x10), (0x1, 0x11), (0x2, 0x12), (0x3, 0x13)] State.reset).setI 0x0FFE)))).setPc 0x0202) = true := by decide

/-- T109: glyph 0 of the default font. -/
theorem test_ld_regs_glyph :
    stepsTo (fetching 0xF465 (State.reset.setI 0x0050))
      ((regs [(0x0, 0xF0), (0x1, 0x90), (0x2, 0x90), (0x3, 0x90), (0x4, 0xF0)] (fetching 0xF465 (State.reset.setI 0x0050))).setPc 0x0202) = true := by decide

/-- T110. -/
theorem test_ld_regs_wraps_memory :
    stepsTo (fetching 0xF165 (bytes 0xFFF [0xAA] (bytes 0x000 [0xBB] (State.reset.setI 0x0FFF))))
      ((regs [(0x0, 0xAA), (0x1, 0xBB)] (fetching 0xF165 (bytes 0xFFF [0xAA] (bytes 0x000 [0xBB] (State.reset.setI 0x0FFF))))).setPc 0x0202) = true := by decide

/-- T113: the next fetch sees the stored bytes (R61). -/
theorem test_store_then_fetch :
    after (fetching 0xF155 ((regs [(0x0, 0x12), (0x1, 0x00)] State.reset).setI 0x0202))
      (fun t => stepsTo t (t.setPc 0x0200)) = true := by decide

/-- The default font (R32), the glyphs C, D, E, F by hand from its table, and the zero bytes around it. -/
theorem test_font_in_memory :
    (List.range 20).map (fun k => State.reset.memRead (0x8C + k)) =
      [0xF0, 0x80, 0x80, 0x80, 0xF0, 0xE0, 0x90, 0x90, 0x90, 0xE0,
       0xF0, 0x80, 0xF0, 0x80, 0xF0, 0xF0, 0x80, 0xF0, 0x80, 0x80] ∧
    State.reset.memRead 0x4F = 0 ∧ State.reset.memRead 0xA0 = 0 := by decide

/-- Writing back what an unlisted address reads as removes the pair, so equal memories are equal data. -/
theorem test_memory_canonical :
    Memory.write (Memory.write [] 0x300 0x42) 0x1300 0x00 = [] ∧
    Memory.write (Memory.write [] 0x300 0x42) 0x052 0x42 = [(0x052, 0x42), (0x300, 0x42)] := by decide


/-! ### Display -/

/-- T120. -/
theorem test_cls :
    after (cells [(0, 0), (31, 63)] (fetching 0x00E0 (regs [(0xF, 0x01)] State.reset)))
      (fun t => lit t [(0, 0), (31, 63), (15, 32)] == [false, false, false] && t.readV 15 == 1 && t.pc == 0x0202) = true := by
  decide

/-- T126: columns 64 to 67 and row 32 are dropped, not wrapped. -/
theorem test_drw_clips :
    after (fetching 0xD012 ((bytes 0x300 [0xFF, 0xFF] (regs [(0x0, 0x3C), (0x1, 0x1F)] State.reset)).setI 0x0300))
      (fun t => lit t [(31, 59), (31, 60), (31, 61), (31, 62), (31, 63), (31, 0), (0, 60), (0, 0), (30, 60)] ==
        [false, true, true, true, true, false, false, false, false] && t.readV 15 == 0 && t.pc == 0x0202) = true := by
  decide

/-- T130: the old flag value 3 is the column, and the flag is written after it. -/
theorem test_drw_flag_as_column :
    after (fetching 0xDF01 ((bytes 0x300 [0x80] (regs [(0xF, 0x03)] State.reset)).setI 0x0300))
      (fun t => lit t [(0, 2), (0, 3), (0, 4), (0, 0)] == [false, true, false, false] && t.readV 15 == 0) = true := by
  decide

/-- T123 and T124 in the collision flag alone. -/
theorem test_collision_only_under_a_set_bit :
    (drawSprite (cells [(1, 3)] State.reset).fb 2 1 1 (fun _ => 0xC0)).2 = true ∧
    (drawSprite (cells [(1, 3)] State.reset).fb 2 1 1 (fun _ => 0x80)).2 = false := by decide


/-! ### Keypad and timers -/

/-- T144. -/
theorem test_skp_pressed_index_reduced :
    stepsTo (fetching 0xE09E (pressed 10 (regs [(0x0, 0x1A)] State.reset)))
      ((fetching 0xE09E (pressed 10 (regs [(0x0, 0x1A)] State.reset))).setPc 0x0204) = true := by decide

/-- T141. -/
theorem test_skp_not_pressed :
    stepsTo (fetching 0xE09E (regs [(0x0, 0x0A)] State.reset))
      ((fetching 0xE09E (regs [(0x0, 0x0A)] State.reset)).setPc 0x0202) = true := by decide

/-- T142. -/
theorem test_sknp_pressed :
    stepsTo (fetching 0xE0A1 (pressed 10 (regs [(0x0, 0x0A)] State.reset)))
      ((fetching 0xE0A1 (pressed 10 (regs [(0x0, 0x0A)] State.reset))).setPc 0x0202) = true := by decide

/-- T143. -/
theorem test_sknp_not_pressed :
    stepsTo (fetching 0xE0A1 (regs [(0x0, 0x0A)] State.reset))
      ((fetching 0xE0A1 (regs [(0x0, 0x0A)] State.reset)).setPc 0x0204) = true := by decide

/-- T146. -/
theorem test_ld_vx_dt :
    stepsTo (fetching 0xF307 (State.reset.setDt 0x2C))
      ((regs [(0x3, 0x2C)] (fetching 0xF307 (State.reset.setDt 0x2C))).setPc 0x0202) = true := by decide

/-- T147. -/
theorem test_ld_dt_vx :
    stepsTo (fetching 0xF315 (regs [(0x3, 0x2C)] State.reset))
      ((((fetching 0xF315 (regs [(0x3, 0x2C)] State.reset))).setDt 0x2C).setPc 0x0202) = true := by decide

/-- T148. -/
theorem test_ld_st_vx :
    stepsTo (fetching 0xF318 (regs [(0x3, 0x2C)] State.reset))
      ((((fetching 0xF318 (regs [(0x3, 0x2C)] State.reset))).setSt 0x2C).setPc 0x0202) = true := by decide

/-- T150. -/
theorem test_ld_vx_k_lowest :
    stepsTo (fetching 0xF30A (pressed 9 (pressed 2 State.reset)))
      ((regs [(0x3, 0x02)] (fetching 0xF30A (pressed 9 (pressed 2 State.reset)))).setPc 0x0202) = true := by decide

/-- T153: the advance and the rewind both wrap. -/
theorem test_ld_vx_k_rewind_wraps :
    stepsTo (fetching 0xF30A (State.reset.setPc 0xFFFF)) (fetching 0xF30A (State.reset.setPc 0xFFFF)) = true := by
  decide


/-! ### The external operations -/

/-- T154, T155, T156. -/
theorem test_timer_tick :
    timerTick (State.reset.setDt 2) = State.reset.setDt 1 ∧
    timerTick ((State.reset.setDt 1).setSt 1) = State.reset ∧ timerTick State.reset = State.reset := by decide

/-- T157. -/
theorem test_timer_export :
    timerExport ((State.reset.setDt 0xFF).setSt 3) = (0xFF, 3) ∧ soundOn (State.reset.setSt 3) = true ∧
    soundOn State.reset = false := by decide

/-- T158, T159. -/
theorem test_key_write :
    (keyWrite 4 true State.reset).keyPressed 4 = true ∧
    keyWrite 4 false (keyWrite 4 true State.reset) = State.reset := by decide

/-- T126's export: the four set cells stand at 2044 to 2047. -/
theorem test_fb_export_order :
    let e := fbExport Config.defaultSentinels (cells [(31, 60), (31, 61), (31, 62), (31, 63)] State.reset)
    e[2043]? = some 0 ∧ e[2044]? = some 1 ∧ e[2047]? = some 1 ∧ e[2048]? = none := by
  have h : ∀ s k b, k < 2048 → Framebuffer.cell s.fb (k / 64) (k % 64) = b →
      (fbExport Config.defaultSentinels s)[k]? = some (if b then (1 : BitVec 8) else 0) := fun s k b hk hb => by
    rw [fbExport, List.getElem?_map, List.getElem?_range hk, ← hb]
    rfl
  exact ⟨h _ _ false (by decide) (by decide), h _ _ true (by decide) (by decide),
    h _ _ true (by decide) (by decide), by simp [fbExport]⟩

/-- T171 and T174. -/
theorem test_load :
    (boot (some [0x12, 0x00]) State.reset).mem = [(0x200, 0x12)] ∧
    (boot (some [0x12, 0x00]) State.reset).pc = 0x0200 ∧ boot (some []) State.reset = State.reset := by decide

/-- T173: one byte too many. -/
theorem test_load_capacity : load (List.replicate 3585 0xFF) State.reset = .error .capacity := by
  simp only [load, List.length_replicate]
  rfl

/-- T170, from a state in which every element differs. -/
theorem test_reset_machine :
    resetMachine (pressed 3 (cells [(1, 1)] (bytes 0x052 [0x42] (regs [(0x2, 0x05)]
      (((((State.reset.push 0x0ABC).setI 1).setPc 2).setDt 3).setSt 4))))) = State.reset := by decide


/-! ### Witnesses for the hypotheses of the obligations -/

/-- A key state used below: keys 0 and 15 pressed. -/
def twoKeys : State := pressed 0 (pressed 15 State.reset)

/-- A state about to draw the source's sprite (S5) at row 31, column 56, the last place where it is not clipped. -/
def cornerDraw : State := (bytes 0x300 [0xFF] (regs [(0x0, 0x38), (0x1, 0x1F)] State.reset)).setI 0x0300

theorem witness_ResetLeavesTheTableOfR36 :
    (0 < 16 ∧ 15 < 16) ∧ (0 < 80 ∧ 79 < 80) ∧ (0x4F < 4096 ∧ 0x4F < 0x50) ∧ (0xFFF < 4096 ∧ 0xA0 ≤ 0xFFF) := by decide

theorem witness_ResetWithAnyFontTable :
    (0 < 80 ∧ 79 < 80) ∧ (0x00 < 4096 ∧ 0x00 < 0x50) ∧ (0xA0 < 4096 ∧ 0xA0 ≤ 0xA0) := by decide

/-- Both sides of the capacity (R231), and the bytes around an image that fills memory or is empty. -/
theorem witness_LoadCopiesOrFailsWhole :
    (List.replicate 3585 (0xFF : Byte)).length > 3584 ∧ (List.replicate 3584 (0xFF : Byte)).length ≤ 3584 ∧
    3583 < (List.replicate 3584 (0xFF : Byte)).length ∧ 0x1FF < 0x200 ∧ 0x200 + ([] : List Byte).length ≤ 0x200 := by
  rw [List.length_replicate, List.length_replicate]
  decide

theorem witness_BootFetchesTheImageFirst :
    (List.replicate 3585 (0xFF : Byte)).length > 3584 ∧
    ((0x12 : Byte) :: (0x00 : Byte) :: List.replicate 3582 0xFF).length ≤ 3584 := by
  rw [List.length_cons, List.length_cons, List.length_replicate, List.length_replicate]
  decide

theorem witness_FetchDecodeExecute :
    ∃ s : State, decode [s.memRead s.pc.toNat, s.memRead (s.pc.toNat + 1)] = .ok (.jp 0xABC, []) :=
  ⟨fetching 0x1ABC State.reset, rfl⟩

theorem witness_FetchReducesTheProgramCounter :
    (0x1200 : Word).toNat % 4096 = State.reset.pc.toNat % 4096 := by decide

theorem witness_DecodeOfEncodeIsIdentity :
    Instr.wf (.drw 15 0 15) = true ∧ Instr.wf (.nopUnmatched 0x00EF) = true := by decide

theorem witness_UnmatchedWordIsANoOperation : isUnmatched State.reset.fetchWord = true := by decide +kernel

theorem witness_CallThenReturnComesBack :
    ∃ t, exec (.call 0x300) State.reset = .next t ∧
      ∃ u : State, u ≠ t ∧ u.stack = t.stack ∧ u.sp = t.sp :=
  ⟨_, rfl, (regs [(0x3, 0x07)] (State.reset.push 0x0200)), by decide +kernel, rfl, rfl⟩

theorem witness_StackIsLastInFirstOut :
    0 ≠ State.reset.sp.toNat + 1 ∧ (List.replicate 16 (0x0ABC : Word)).length ≤ 16 ∧
    State.reset.sp = 0 ∧ (List.replicate 16 (0x0ABC : Word)).length = 16 := by decide

/-- Sixteen nested calls are within the depth, a seventeenth is not, nor is a return without a call (R233). -/
theorem witness_StackPointerCountsOutstandingCalls :
    State.reset.sp.toNat = 0 % 16 ∧ callDepth (List.replicate 16 (.call 0x300)) 0 = some 16 ∧
    callDepth [.call 0x300, .cls, .ret] 0 = some 0 ∧ callDepth (List.replicate 17 (.call 0x300)) 0 = none ∧
    callDepth [.ret] 0 = none := by decide

theorem witness_LoadsAndImmediateAddWriteOneRegister : (14 : RegIdx) ≠ 15 ∧ (0 : RegIdx) ≠ 15 := by decide

theorem witness_LogicInstructionsAreBitwise : (15 : RegIdx) ≠ 0 := by decide

theorem witness_AddSetsCarryFlag : (14 : RegIdx) ≠ 15 ∧ (0 : RegIdx) ≠ 14 ∧ (0 : RegIdx) ≠ 15 := by decide

theorem witness_SubtractionsSetStrictFlag : (0 : RegIdx) ≠ 15 ∧ (14 : RegIdx) ≠ 0 ∧ (14 : RegIdx) ≠ 15 := by decide

theorem witness_ShiftsKeepTheBitShiftedOut : (7 : RegIdx) ≠ 15 ∧ (0 : RegIdx) ≠ 7 ∧ (0 : RegIdx) ≠ 15 := by decide

theorem witness_RandomIsMaskedAndDrawnOnce :
    (∃ t, exec .cls State.reset = .next t) ∧ (∀ x kk, Instr.cls ≠ .rnd x kk) ∧ (1 : RegIdx) ≠ 0 :=
  ⟨⟨_, rfl⟩, nofun, by decide⟩

/-- An addition with carry and a draw whose origin is the flag register. -/
theorem witness_FlagRegisterHoldsZeroOrOne :
    ((∃ t, exec (.addReg 14 15) State.reset = .next t) ∧ sparesFlagReg (.addReg 14 15) ∧
      flagWritingDestination (.addReg 14 15) = some 14) ∧
    ((∃ t, exec (.drw 15 0 1) State.reset = .next t) ∧ sparesFlagReg (.drw 15 0 1)) :=
  ⟨⟨⟨_, rfl⟩, by unfold sparesFlagReg; decide, rfl⟩, ⟨_, rfl⟩, by unfold sparesFlagReg; decide⟩

/-- With `I` = 0x0FFE the digits stand at 0xFFE, 0xFFF and 0x000, so 0xFFD and 0x001 lie outside. -/
theorem witness_DecimalDigitsAreStored :
    (∀ k, k < 3 → 0xFFD % 4096 ≠ (State.reset.setI 0x0FFE).effAddr k % 4096) ∧
    (∀ k, k < 3 → 0x001 % 4096 ≠ (State.reset.setI 0x0FFE).effAddr k % 4096) := by decide

/-- The smallest and the largest block. -/
theorem witness_RegistersAreStored :
    (0 : RegIdx) ≤ 0 ∧ (∀ k : RegIdx, k ≤ 0 → 0x301 % 4096 ≠ (State.reset.setI 0x0300).effAddr k.val % 4096) ∧
    (15 : RegIdx) ≤ 15 ∧ (∀ k : RegIdx, k ≤ 15 → 0x008 % 4096 ≠ (State.reset.setI 0x0FF8).effAddr k.val % 4096) := by
  decide

theorem witness_RegistersAreLoaded : (14 : RegIdx) ≤ 14 ∧ (14 : RegIdx) < 15 := by decide

theorem witness_StoreThenLoadBringsRegistersBack : (0 : RegIdx) ≤ 0 ∧ (0 : RegIdx) < 1 := by decide

/-- `I` and `PC` name the same bytes of memory, once equal and once 4096 apart. -/
theorem witness_StoredInstructionRunsNext :
    1 ≤ (1 : RegIdx).val ∧ (State.reset.setI 0x0200).i.toNat % 4096 = (State.reset.setI 0x0200).pc.toNat % 4096 ∧
    (State.reset.setI 0xF200).i.toNat % 4096 = (State.reset.setI 0xF200).pc.toNat % 4096 := by decide

theorem witness_CanonicalMemoriesWithEqualBytesAreEqual :
    Memory.wf [(0x052, 0x42), (0xFFF, 0x01)] ∧
    Memory.wf (Memory.write (Memory.write [] 0x1FFF 0x01) 0x052 0x42) ∧
    ∀ a, Memory.read [(0x052, 0x42), (0xFFF, 0x01)] a =
      Memory.read (Memory.write (Memory.write [] 0x1FFF 0x01) 0x052 0x42) a := by
  have h : Memory.write (Memory.write [] 0x1FFF 0x01) 0x052 0x42 = [(0x052, 0x42), (0xFFF, 0x01)] := by decide +kernel
  rw [h]
  exact ⟨by decide +kernel, by decide +kernel, fun _ => rfl⟩

theorem witness_ClearEmptiesTheFramebuffer : (0 < 32 ∧ 0 < 64) ∧ (31 < 32 ∧ 63 < 64) := by decide

/-- A covered cell that is set, and a sprite of no rows, which covers nothing. -/
theorem witness_DrawFlipsTheCoveredCells :
    (State.drawCovers (cells [(31, 63)] cornerDraw) 0 1 1 31 63 = true ∧
      Framebuffer.cell (cells [(31, 63)] cornerDraw).fb 31 63 = true) ∧
    (∀ r c, r < 32 → c < 64 → State.drawCovers cornerDraw 0 1 0 r c = true → Framebuffer.cell cornerDraw.fb r c = false) ∧
    (14 : RegIdx) ≠ 15 :=
  ⟨by decide +kernel, fun r c _ _ h => by
    simp [State.drawCovers, spriteCovers] at h
    omega, by decide⟩

/-- Two ordinary registers, and the flag register as `x` where the flag write does not move the origin. -/
theorem witness_DrawTwiceRestoresTheFramebuffer :
    (∃ t, exec (.drw 0 1 1) cornerDraw = .next t ∧ originColumn (t.readV 0) = originColumn (cornerDraw.readV 0) ∧
      originRow (t.readV 1) = originRow (cornerDraw.readV 1)) ∧
    (∃ t, exec (.drw 15 1 1) cornerDraw = .next t ∧ originColumn (t.readV 15) = originColumn (cornerDraw.readV 15) ∧
      originRow (t.readV 1) = originRow (cornerDraw.readV 1)) :=
  ⟨⟨_, rfl, by decide +kernel, by decide +kernel⟩, ⟨_, rfl, by decide +kernel, by decide +kernel⟩⟩

theorem witness_SelfCancellingDraw :
    (0 : RegIdx) ≠ 15 ∧ (1 : RegIdx) ≠ 15 ∧ cornerDraw.memRead (cornerDraw.effAddr 0) = 0xFF ∧
    (cornerDraw.readV 0).toNat % 64 ≤ 56 ∧
    (∀ c, c < 8 → Framebuffer.cell cornerDraw.fb ((cornerDraw.readV 1).toNat % 32)
      ((cornerDraw.readV 0).toNat % 64 + c) = false) := by decide +kernel

/-- The first and the last key, selected by values above 15. -/
theorem witness_SkipsOnAKey :
    (15 : RegIdx).val = ((regs [(0x0, 0xFF)] twoKeys).readV 0).toNat % 16 ∧
    (0 : RegIdx).val = ((regs [(0x0, 0x10)] twoKeys).readV 0).toNat % 16 := by decide

theorem witness_TimerInstructionsMoveOneByte : (14 : RegIdx) ≠ 15 := by decide

/-- Key 0, key 15 alone, and no key. -/
theorem witness_KeyReadTakesTheLowestKey :
    (twoKeys.keyPressed 0 = true ∧ ∀ j, j < 0 → twoKeys.keyPressed j = false) ∧
    ((pressed 15 State.reset).keyPressed 15 = true ∧ ∀ j, j < 15 → (pressed 15 State.reset).keyPressed j = false) ∧
    (∀ k, State.reset.keyPressed k = false) := by decide

theorem witness_BlockingKeyReadWaits :
    (decodeWord (fetching 0xF30A State.reset).fetchWord = .ldVxK 3 ∧
      ∀ k, (fetching 0xF30A State.reset).keyPressed k = false) ∧
    (decodeWord (fetching 0xF30A twoKeys).fetchWord = .ldVxK 3 ∧ (fetching 0xF30A twoKeys).keyPressed 0 = true ∧
      ∀ j, j < 0 → (fetching 0xF30A twoKeys).keyPressed j = false) := by decide +kernel

theorem witness_TicksCountDownToZero :
    (∃ t, step (fetching 0x609C State.reset) = .next t) ∧
    (∀ x, decodeWord (fetching 0x609C State.reset).fetchWord ≠ .ldDtVx x) ∧
    (∀ x, decodeWord (fetching 0x609C State.reset).fetchWord ≠ .ldStVx x) :=
  ⟨⟨_, rfl⟩, by decide +kernel, by decide +kernel⟩

theorem witness_KeyWriteSetsOneKey : ∃ t, step twoKeys = .next t := ⟨_, rfl⟩

theorem witness_FramebufferExportIsRowMajor : (0 < 32 ∧ 0 < 64) ∧ (31 < 32 ∧ 63 < 64) := by decide

theorem witness_StepKeepsTheInvariant : State.Inv cornerDraw ∧ ∃ t, step (fetching 0x2300 cornerDraw) = .next t :=
  ⟨by decide +kernel, ⟨_, rfl⟩⟩

theorem witness_OnlyCallAndReturnTouchTheStack :
    (∃ t, exec .cls cornerDraw = .next t) ∧ (∀ nnn, Instr.cls ≠ .call nnn) ∧ Instr.cls ≠ .ret ∧
    (∃ t, exec .ret cornerDraw = .next t) ∧ (∀ nnn, Instr.ret ≠ .call nnn) :=
  ⟨⟨_, rfl⟩, nofun, nofun, ⟨_, rfl⟩, nofun⟩

theorem witness_WhoWritesFramebufferMemoryAndI :
    (∃ t, exec (.addReg 0 1) cornerDraw = .next t) ∧ Instr.addReg 0 1 ≠ .cls ∧ (∀ x y n, Instr.addReg 0 1 ≠ .drw x y n) ∧
    (∀ x, Instr.addReg 0 1 ≠ .ldB x) ∧ (∀ x, Instr.addReg 0 1 ≠ .stRegs x) ∧
    (∀ nnn, Instr.addReg 0 1 ≠ .ldI nnn) ∧ (∀ x, Instr.addReg 0 1 ≠ .addI x) ∧ (∀ x, Instr.addReg 0 1 ≠ .ldF x) :=
  ⟨⟨_, rfl⟩, nofun, nofun, nofun, nofun, nofun, nofun, nofun⟩

theorem witness_ProgramCounterWrites : ∃ t, exec (.seImm 15 0xFF) cornerDraw = .next t := ⟨_, rfl⟩

/-- Fx65 up to register 14 is the largest block load that does not name the flag register. -/
theorem witness_OnlySixInstructionsWriteTheFlag :
    (∃ t, exec (.ldRegs 14) cornerDraw = .next t) ∧ flagWritingDestination (.ldRegs 14) = none ∧
    (∀ x y n, Instr.ldRegs 14 ≠ .drw x y n) ∧ (∀ kk, Instr.ldRegs 14 ≠ .ldImm 15 kk) ∧
    (∀ kk, Instr.ldRegs 14 ≠ .addImm 15 kk) ∧
    (∀ y, Instr.ldRegs 14 ≠ .ldReg 15 y ∧ Instr.ldRegs 14 ≠ .orReg 15 y ∧ Instr.ldRegs 14 ≠ .andReg 15 y ∧
      Instr.ldRegs 14 ≠ .xorReg 15 y) ∧
    (∀ kk, Instr.ldRegs 14 ≠ .rnd 15 kk) ∧ Instr.ldRegs 14 ≠ .ldVxDt 15 ∧ Instr.ldRegs 14 ≠ .ldVxK 15 ∧
    Instr.ldRegs 14 ≠ .ldRegs 15 :=
  ⟨⟨_, rfl⟩, rfl, nofun, nofun, nofun, fun _ => ⟨nofun, nofun, nofun, nofun⟩, nofun, nofun, nofun, by decide⟩

theorem witness_KeypadIsReadByThreeInstructions :
    ∀ x, decodeWord (fetching 0x609C State.reset).fetchWord ≠ .skp x ∧
      decodeWord (fetching 0x609C State.reset).fetchWord ≠ .sknp x ∧
      decodeWord (fetching 0x609C State.reset).fetchWord ≠ .ldVxK x := by decide +kernel

/-- A block store that begins at 0x0A0, the first address past the font. -/
theorem witness_SparingStepsKeepFontAndReserved :
    (∃ t, step (fetching 0xFF55 (State.reset.setI 0x00A0)) = .next t) ∧
    (fetching 0xFF55 (State.reset.setI 0x00A0)).sparesFontAndReserved
      (decodeWord (fetching 0xFF55 (State.reset.setI 0x00A0)).fetchWord) ∧ 0x9F % 4096 < 0xA0 := by
  refine ⟨⟨_, rfl⟩, ?_, by decide⟩
  have h : decodeWord (fetching 0xFF55 (State.reset.setI 0x00A0)).fetchWord = .stRegs 15 := by decide +kernel
  rw [h]
  intro _
  decide

/-- A block store that ends exactly at 0xFFF. -/
theorem witness_AccessesInsideMemoryDoNotWrap :
    (∃ t, exec (.stRegs 15) (State.reset.setI 0x0FF0) = .next t) ∧ State.staysInMemory (State.reset.setI 0x0FF0) (.stRegs 15) ∧
    0x0FEF < 4096 ∧ 0x0FEF < (State.reset.setI 0x0FF0).i.toNat :=
  ⟨⟨_, rfl⟩, by unfold State.staysInMemory; decide, by decide, by decide⟩

/-- T21. -/
theorem witness_EndedProgramStaysPut : (fetching 0x1200 State.reset).ended = true := by decide +kernel

end Sys2Proof.Tests
end

section
/-! PROOFS. The state: what each instruction may write and what it leaves, the call stack, the canonical form of memory,
and the two elements of the state that few instructions read (spec/10_state.md). -/

namespace Sys2Proof.Machine

/-! ### What one instruction can do to the state -/

/-- R200, for one instruction: `exec` answers a next state. -/
theorem exec_completes (i : Instr) (s : State) : ∃ t, exec i s = .next t := by
  cases i with
  | ldVxK x =>
    cases h : s.lowestPressedKey with
    | some k => exact ⟨_, exec_ldVxK_pressed x h⟩
    | none => exact ⟨_, exec_ldVxK_waiting x h⟩
  | _ => exact ⟨_, rfl⟩

/-- The state `s` with the elements an instruction may write taken from `t`, everything else as it was. -/
def frame (s t : State) : Instr → State
  | .cls => { s with fb := t.fb }
  | .drw _ _ _ => { s with v := t.v, fb := t.fb }
  | .ret => { s with sp := t.sp, pc := t.pc }
  | .call _ => { s with stack := t.stack, sp := t.sp, pc := t.pc }
  | .jp _ | .jpV0 _ | .seImm _ _ | .sneImm _ _ | .seReg _ _ | .sneReg _ _ | .skp _ | .sknp _ => { s with pc := t.pc }
  | .ldVxK _ => { s with v := t.v, pc := t.pc }
  | .ldImm _ _ | .addImm _ _ | .ldReg _ _ | .orReg _ _ | .andReg _ _ | .xorReg _ _ | .ldVxDt _ | .ldRegs _
  | .addReg _ _ | .sub _ _ | .shr _ _ | .subn _ _ | .shl _ _ => { s with v := t.v }
  | .rnd _ _ => { s with v := t.v, draws := t.draws }
  | .ldI _ | .addI _ | .ldF _ => { s with i := t.i }
  | .ldDtVx _ => { s with dt := t.dt }
  | .ldStVx _ => { s with st := t.st }
  | .ldB _ | .stRegs _ => { s with mem := t.mem }
  | .nopUnmatched _ => s

theorem State.skipIf_frame (s : State) (c : Bool) : s.skipIf c = { s with pc := (s.skipIf c).pc } := by
  cases c <;> rfl

/-- Every instruction keeps to its frame. -/
theorem exec_frame {i : Instr} {s t : State} (h : exec i s = .next t) : t = frame s t i := by
  cases i with
  | ldVxK x => obtain ⟨k, rfl⟩ | rfl := exec_ldVxK_cases h <;> rfl
  | seImm | sneImm | seReg | sneReg | skp | sknp =>
    cases h
    exact State.skipIf_frame s _
  | _ =>
    cases h
    rfl

/-- The five arithmetic forms with a flag: both writes of R132, whatever the flag and the result. -/
theorem exec_flagWriting {i : Instr} {x : RegIdx} {s t : State} (h : exec i s = .next t)
    (hx : flagWritingDestination i = some x) : ∃ f b, t = s.writeFlagThenResult x f b := by
  cases i with
  | addReg | sub | shr | subn | shl =>
    cases hx
    exact ⟨_, _, (Host.Outcome.next.inj h).symm⟩
  | _ => nomatch hx

/-- One write to a register leaves the others alone, in the form in which `exec` answers it. -/
theorem readV_of_next_writeV {s t : State} {x y : RegIdx} {b : Byte}
    (h : (.next (s.writeV x b) : Host.Outcome State Fault Refusal) = .next t) (hxy : x ≠ y) :
    t.readV y = s.readV y := by
  cases h
  rw [State.readV_writeV, if_neg hxy.symm]

/-! ### The flag register (R21) -/

theorem flagByte_cases (f : Bool) : flagByte f = 0x00 ∨ flagByte f = 0x01 := by
  cases f
  · exact .inl rfl
  · exact .inr rfl

/-- Settles O26: either kind of flag write leaves a `flagByte` in the flag register. -/
theorem flagRegisterHoldsZeroOrOne : Obligations.FlagRegisterHoldsZeroOrOne := by
  intro i s t h hspares hi
  have hflag : ∃ f, t.readV flagReg = flagByte f := by
    obtain ⟨x, hx⟩ | ⟨x, y, n, rfl⟩ := hi
    · obtain ⟨f, b, rfl⟩ := exec_flagWriting h hx
      have hne : flagReg ≠ x := fun e => hspares (e ▸ hx)
      exact ⟨f, by rw [State.readV_writeFlagThenResult, if_neg hne, if_pos rfl]⟩
    · cases h
      exact ⟨_, by rw [State.readV_writeV, if_pos rfl]⟩
  obtain ⟨f, hf⟩ := hflag
  exact hf ▸ flagByte_cases f

/-- Settles O54: the instructions that write registers are gone through by the register they name; all others leave the
registers by their frame. -/
theorem onlySixInstructionsWriteTheFlag : Obligations.OnlySixInstructionsWriteTheFlag := by
  intro i s t h hflag hdrw hldImm haddImm hcopy hrnd hldVxDt hldVxK hldRegs
  simp only [forall_and] at hcopy
  obtain ⟨hldReg, horReg, handReg, hxorReg⟩ := hcopy
  cases i with
  | addReg | sub | shr | subn | shl => nomatch hflag
  | drw x y n => exact absurd rfl (hdrw x y n)
  | ldImm x kk => exact readV_of_next_writeV h fun e => hldImm kk (e ▸ rfl)
  | addImm x kk => exact readV_of_next_writeV h fun e => haddImm kk (e ▸ rfl)
  | ldReg x y => exact readV_of_next_writeV h fun e => hldReg y (e ▸ rfl)
  | orReg x y => exact readV_of_next_writeV h fun e => horReg y (e ▸ rfl)
  | andReg x y => exact readV_of_next_writeV h fun e => handReg y (e ▸ rfl)
  | xorReg x y => exact readV_of_next_writeV h fun e => hxorReg y (e ▸ rfl)
  | rnd x kk => exact readV_of_next_writeV (s := s.drawn) h fun e => hrnd kk (e ▸ rfl)
  | ldVxDt x => exact readV_of_next_writeV h fun e => hldVxDt (e ▸ rfl)
  | ldVxK x =>
    obtain ⟨k, rfl⟩ | rfl := exec_ldVxK_cases h
    · exact readV_of_next_writeV rfl fun e => hldVxK (e ▸ rfl)
    · rfl
  | ldRegs x =>
    cases h
    have hx : ¬ 15 ≤ x := fun hle => hldRegs (congrArg Instr.ldRegs (Fin.last_le_iff.1 hle))
    rw [State.readV_regsFromMem, if_neg hx]
  | _ => exact State.readV_of_v_eq (congrArg State.v (exec_frame h) :) 15

/-! ### Who writes what (R22, R23, R25, R26, R30, R50) -/

/-- Settles O51: the stack array and `SP` are outside every frame but those of CALL and RET. -/
theorem onlyCallAndReturnTouchTheStack : Obligations.OnlyCallAndReturnTouchTheStack := by
  intro i s t h
  cases i with
  | call nnn => exact ⟨fun hcall => absurd rfl (hcall nnn), fun hcall => absurd rfl (hcall nnn)⟩
  | ret => exact ⟨fun _ => (congrArg State.stack (exec_frame h) :), fun _ hret => absurd rfl hret⟩
  | _ => exact ⟨fun _ => (congrArg State.stack (exec_frame h) :), fun _ _ => (congrArg State.sp (exec_frame h) :)⟩

theorem exec_fb {i : Instr} {s t : State} (h : exec i s = .next t) (hcls : i ≠ .cls)
    (hdrw : ∀ x y n, i ≠ .drw x y n) : t.fb = s.fb := by
  cases i with
  | cls => exact absurd rfl hcls
  | drw x y n => exact absurd rfl (hdrw x y n)
  | _ => exact (congrArg State.fb (exec_frame h) :)

theorem exec_mem {i : Instr} {s t : State} (h : exec i s = .next t) (hldB : ∀ x, i ≠ .ldB x)
    (hstRegs : ∀ x, i ≠ .stRegs x) : t.mem = s.mem := by
  cases i with
  | ldB x => exact absurd rfl (hldB x)
  | stRegs x => exact absurd rfl (hstRegs x)
  | _ => exact (congrArg State.mem (exec_frame h) :)

theorem exec_i {i : Instr} {s t : State} (h : exec i s = .next t) (hldI : ∀ nnn, i ≠ .ldI nnn)
    (haddI : ∀ x, i ≠ .addI x) (hldF : ∀ x, i ≠ .ldF x) : t.i = s.i := by
  cases i with
  | ldI nnn => exact absurd rfl (hldI nnn)
  | addI x => exact absurd rfl (haddI x)
  | ldF x => exact absurd rfl (hldF x)
  | _ => exact (congrArg State.i (exec_frame h) :)

/-- Settles O52, by the frame of each instruction. -/
theorem whoWritesFramebufferMemoryAndI : Obligations.WhoWritesFramebufferMemoryAndI :=
  fun _ _ _ h => ⟨exec_fb h, exec_mem h, exec_i h⟩

/-- A skip leaves `PC` or moves it 2 further (R108). -/
theorem State.skipIf_pc_cases (s : State) (c : Bool) : (s.skipIf c).pc = s.pc ∨ (s.skipIf c).pc = s.pc + 2 := by
  cases c
  · exact .inl rfl
  · exact .inr rfl

/-- Settles O53: the jumps, the skips and Fx0A one by one; `PC` is outside every other frame. -/
theorem programCounterWrites : Obligations.ProgramCounterWrites := by
  intro i s t h
  cases i with
  | ret | jp | call | jpV0 => exact .inl (by simp)
  | seImm | sneImm | seReg | sneReg | skp | sknp =>
    cases h
    exact .inr (.inl ⟨by simp, State.skipIf_pc_cases s _⟩)
  | ldVxK x =>
    refine .inr (.inr (.inl ⟨⟨x, rfl⟩, ?_⟩))
    obtain ⟨k, rfl⟩ | rfl := exec_ldVxK_cases h
    · exact .inl rfl
    · exact .inr rfl
  | _ => exact .inr (.inr (.inr (congrArg State.pc (exec_frame h) :)))

/-! ### The canonical form of memory -/

/-- Memory after an instruction: as before, or with the bytes of one store sequence written (R50, R55). -/
theorem exec_mem_cases {i : Instr} {s t : State} (h : exec i s = .next t) :
    t.mem = s.mem ∨ ∃ a vs, t.mem = Memory.writeBytes s.mem a vs := by
  cases i with
  | ldB | stRegs =>
    cases h
    exact .inr ⟨_, _, rfl⟩
  | _ => exact .inl (exec_mem h nofun nofun)

theorem exec_inv {i : Instr} {s t : State} (hs : s.Inv) (h : exec i s = .next t) : t.Inv := by
  unfold State.Inv
  obtain hmem | ⟨a, vs, hmem⟩ := exec_mem_cases h
  · rwa [hmem]
  · rw [hmem]
    exact Memory.writeBytes_wf a vs hs

/-- Settles O48: a store sequence keeps the canonical form, and nothing else writes memory. -/
theorem stepKeepsTheInvariant : Obligations.StepKeepsTheInvariant :=
  fun s _ hs h => exec_inv (s := s.advancePc) hs h

/-- Settles O49: memory lists nothing after reset. -/
theorem resetMeetsTheInvariant : Obligations.ResetMeetsTheInvariant :=
  Memory.wf_nil

/-- Settles O34: the two lists have the same pairs, and lists with strictly rising addresses and the same members are
equal. -/
theorem canonicalMemoriesWithEqualBytesAreEqual : Obligations.CanonicalMemoriesWithEqualBytesAreEqual := by
  intro m m' hm hm' hread
  have _antisymm : Std.Antisymm fun c d : Host.Cell => c.1 < d.1 := ⟨fun _ _ h h' => absurd h' (Nat.lt_asymm h)⟩
  have _irrefl : Std.Irrefl fun c d : Host.Cell => c.1 < d.1 := ⟨fun _ => Nat.lt_irrefl _⟩
  exact hm.1.eq_of_mem_iff hm'.1 fun _ =>
    ⟨Memory.mem_of_read_eq hm hm' hread, Memory.mem_of_read_eq hm' hm fun a ha => (hread a ha).symm⟩

/-- Settles O2: the font table is one sequence of byte writes over the empty list. -/
theorem resetWithAnyFontTable : Obligations.ResetWithAnyFontTable := by
  intro font
  have hlen : font.toList.length = 80 := font.length_toList
  refine ⟨fun k hk => ?_, fun a ha hout => ?_, Memory.writeBytes_wf 0x50 font.toList Memory.wf_nil, rfl⟩
  · exact Memory.read_writeBytes [] 0x50 (0x50 + k) k font.toList (by omega) (by omega) rfl
  · have hother : ∀ k, k < font.toList.length → memIndex a ≠ memIndex (0x50 + k) := by
      intro k hk
      rw [memIndex_of_lt ha, memIndex_of_lt (by omega)]
      omega
    calc (resetWith font).memRead a
        = Memory.read [] a := Memory.read_writeBytes_other [] 0x50 a font.toList hother
      _ = Memory.unlisted a := by rw [Memory.read_nil, memIndex_of_lt ha]
      _ = 0 := Memory.unlisted_zero hout

/-! ### The call stack (R25 to R27) -/

theorem State.push_sp_toNat (s : State) (w : Word) : (s.push w).sp.toNat = (s.sp.toNat + 1) % 16 := by
  rw [State.push_sp, BitVec.toNat_add]
  rfl

theorem State.popSp_toNat (s : State) : s.popSp.toNat = (s.sp.toNat + 15) % 16 := by
  rw [State.popSp, BitVec.toNat_sub, Nat.add_comm]
  rfl

/-- The entry that a push fills, by its number. -/
theorem State.push_stack_at (s : State) (w : Word) {k : Nat} (hk : k < 16) (h : s.sp.toNat = k) :
    (s.push w).stack[k] = w := by
  subst h
  exact State.push_stack_same s w

/-- The entry that a pop takes, by its number. -/
theorem State.popValue_at (s : State) {k : Nat} (hk : k < 16) (h : s.popSp.toNat = k) : s.popValue = s.stack[k] := by
  subst h
  rfl

theorem State.pushAll_sp_toNat (s : State) (ws : List Word) :
    (s.pushAll ws).sp.toNat = (s.sp.toNat + ws.length) % 16 := by
  induction ws generalizing s with
  | nil => exact (Nat.mod_eq_of_lt s.sp.isLt).symm
  | cons w ws ih =>
    have h := ih (s.push w)
    rw [State.push_sp_toNat] at h
    rw [State.pushAll, List.foldl_cons, ← State.pushAll, h, List.length_cons]
    omega

/-- Pushes leave every entry above the ones they fill, counted modulo 16 from `SP`. -/
theorem State.pushAll_stack_other (s : State) (ws : List Word) {k : Nat} (hk : k < 16)
    (h : ∀ j, j < ws.length → k ≠ (s.sp.toNat + j) % 16) : (s.pushAll ws).stack[k] = s.stack[k] := by
  induction ws generalizing s with
  | nil => rfl
  | cons w ws ih =>
    have hsp := s.sp.isLt
    have hw : k ≠ s.sp.toNat := by
      have := h 0 (by simp)
      omega
    have hws : ∀ j, j < ws.length → k ≠ ((s.push w).sp.toNat + j) % 16 := by
      intro j hj
      have := h (j + 1) (by simpa using hj)
      rw [State.push_sp_toNat]
      omega
    exact (ih (s.push w) hws).trans (State.push_stack_other s w hk hw)

/-- Pops that end with one more pop: its value comes last. -/
theorem State.popAll_succ (k : Nat) (s : State) :
    State.popAll (k + 1) s =
      ((State.popAll k s).1 ++ [(State.popAll k s).2.popValue], (State.popAll k s).2.popped) := by
  induction k generalizing s with
  | zero => rfl
  | succ k ih => rw [State.popAll, ih s.popped, State.popAll, List.cons_append]

/-- Up to sixteen pushed values are popped in reverse order; only the stack array shows it (R27). -/
theorem State.popAll_pushAll (s : State) (ws : List Word) (hlen : ws.length ≤ 16) :
    State.popAll ws.length (s.pushAll ws) = (ws.reverse, { s with stack := (s.pushAll ws).stack }) := by
  induction ws generalizing s with
  | nil => rfl
  | cons w ws ih =>
    rw [List.length_cons] at hlen
    have hpops : State.popAll ws.length (s.pushAll (w :: ws)) =
        (ws.reverse, { s.push w with stack := (s.pushAll (w :: ws)).stack }) := ih (s.push w) (by omega)
    have hentry : (s.pushAll (w :: ws)).stack[s.sp.toFin] = w := by
      have hsp := s.sp.isLt
      refine (State.pushAll_stack_other (s.push w) ws hsp fun j hj => ?_).trans (State.push_stack_same s w)
      rw [State.push_sp_toNat]
      omega
    have hpopSp : s.sp + 1 - 1 = s.sp := State.popSp_push s w
    rw [List.length_cons, State.popAll_succ, hpops, List.reverse_cons]
    simp only [State.popValue, State.popped, State.popSp, State.push_sp, hpopSp, hentry]
    rfl

theorem State.pushAll_concat (s : State) (ws : List Word) (w : Word) :
    s.pushAll (ws ++ [w]) = (s.pushAll ws).push w :=
  List.foldl_concat _ _ _ _

/-- Settles O17: one push and one pop by their own laws, sequences by `State.popAll_pushAll` and by where `SP` stands
after sixteen pushes. -/
theorem stackIsLastInFirstOut : Obligations.StackIsLastInFirstOut := by
  refine ⟨fun s w => ?_, fun s ws hlen => ?_, fun s ws w hsp hlen => ?_, fun s hsp => ?_⟩
  · exact ⟨State.push_stack_same s w, fun k hk hne => State.push_stack_other s w hk hne, State.push_sp_toNat s w,
      State.popSp_toNat s, rfl, rfl⟩
  · rw [State.popAll_pushAll s ws hlen]
    exact ⟨rfl, rfl⟩
  · rw [State.pushAll_concat]
    refine State.push_stack_at (s.pushAll ws) w (by decide) ?_
    rw [State.pushAll_sp_toNat, hsp, hlen]
    rfl
  · have hpopSp : s.popSp = 15 := by
      rw [State.popSp, hsp]
      rfl
    exact ⟨hpopSp, State.popValue_at s (by decide) (congrArg BitVec.toNat hpopSp)⟩

/-- What a use of the call stack adds to the call depth, and to `SP`, modulo 16: a pop takes 1 off (R26). -/
def StackUse.depthChange : StackUse → Nat
  | .pushes => 1
  | .pops => 15
  | .untouched => 0

/-- Every instruction moves `SP` as it uses the call stack (R25, R27). -/
theorem exec_sp_toNat {i : Instr} {s t : State} (h : exec i s = .next t) :
    t.sp.toNat = (s.sp.toNat + (stackUse i).depthChange) % 16 := by
  cases i with
  | call nnn =>
    cases h
    exact State.push_sp_toNat s s.pc
  | ret =>
    cases h
    exact State.popSp_toNat s
  | _ =>
    rw [(congrArg State.sp (exec_frame h) :)]
    exact (Nat.mod_eq_of_lt s.sp.isLt).symm

/-- Within the limits of R233, one instruction changes the call depth as it uses the call stack. -/
theorem callDepth_cons {i : Instr} {is : List Instr} {d d' : Nat} (h : callDepth (i :: is) d = some d') :
    ∃ e, callDepth is e = some d' ∧ e % 16 = (d + (stackUse i).depthChange) % 16 := by
  rw [callDepth] at h
  cases huse : stackUse i with
  | pushes =>
    simp only [huse] at h
    split at h
    · exact ⟨d + 1, h, rfl⟩
    · cases h
  | pops =>
    simp only [huse] at h
    split at h
    · exact ⟨d - 1, h, by simp only [StackUse.depthChange]; omega⟩
    · cases h
  | untouched =>
    simp only [huse] at h
    exact ⟨d, h, rfl⟩

theorem execAll_cons {i : Instr} {s u : State} (h : exec i s = .next u) (is : List Instr) :
    execAll (i :: is) s = execAll is u := by
  rw [execAll, h]

/-- Settles O18, by induction on the instructions. -/
theorem stackPointerCountsOutstandingCalls : Obligations.StackPointerCountsOutstandingCalls := by
  intro is
  induction is with
  | nil =>
    intro s d d' hsp hd
    cases hd
    exact ⟨s, rfl, hsp⟩
  | cons i is ih =>
    intro s d d' hsp hd
    obtain ⟨u, hu⟩ := exec_completes i s
    obtain ⟨e, he, hde⟩ := callDepth_cons hd
    have hu_sp : u.sp.toNat = e % 16 := by
      rw [exec_sp_toNat hu, hsp, hde, Nat.mod_add_mod]
    rw [execAll_cons hu]
    exact ih u e d' hu_sp he

/-! ### Elements that few instructions read (R28, R29) -/

/-- R28 for one instruction: another value of `ST` shows at most in `ST`. -/
theorem exec_of_other_st (i : Instr) (s : State) (b : Byte) :
    ∃ t c, exec i s = .next t ∧ exec i { s with st := b } = .next { t with st := c } := by
  cases i with
  | ldStVx x => exact ⟨_, s.readV x, rfl, rfl⟩
  | ldVxK x =>
    cases h : s.lowestPressedKey with
    | some k => exact ⟨_, b, exec_ldVxK_pressed x h, exec_ldVxK_pressed (s := { s with st := b }) x h⟩
    | none => exact ⟨_, b, exec_ldVxK_waiting x h, exec_ldVxK_waiting (s := { s with st := b }) x h⟩
  | seImm | sneImm | seReg | sneReg | skp | sknp =>
    exact ⟨_, b, rfl, congrArg Host.Outcome.next (by simp only [State.skipIf_eq]; rfl)⟩
  | _ => exact ⟨_, b, rfl, rfl⟩

/-- Settles O55: the fetch does not read `ST`, and no instruction does. -/
theorem soundTimerIsNeverRead : Obligations.SoundTimerIsNeverRead :=
  fun s b => exec_of_other_st (decodeWord s.fetchWord) s.advancePc b

/-- R29 for one instruction that is no key reader: other keys show in the keypad alone. -/
theorem exec_of_other_key (i : Instr) (s : State) (keys : Vector Bool 16)
    (hi : ∀ x, i ≠ .skp x ∧ i ≠ .sknp x ∧ i ≠ .ldVxK x) :
    ∃ t, exec i s = .next t ∧ exec i { s with key := keys } = .next { t with key := keys } := by
  simp only [forall_and] at hi
  obtain ⟨hskp, hsknp, hldVxK⟩ := hi
  cases i with
  | skp x => exact absurd rfl (hskp x)
  | sknp x => exact absurd rfl (hsknp x)
  | ldVxK x => exact absurd rfl (hldVxK x)
  | seImm | sneImm | seReg | sneReg =>
    exact ⟨_, rfl, congrArg Host.Outcome.next (by simp only [State.skipIf_eq]; rfl)⟩
  | _ => exact ⟨_, rfl, rfl⟩

/-- Settles O56: the fetch does not read the keypad, and only the three instructions do. -/
theorem keypadIsReadByThreeInstructions : Obligations.KeypadIsReadByThreeInstructions :=
  fun s keys hi => exec_of_other_key (decodeWord s.fetchWord) s.advancePc keys hi

end Sys2Proof.Machine
end

section
/-! PROOFS. The memory port: what a byte write leaves, the fetch of two bytes, and a store that the next fetch sees
(spec/20_memory.md). -/

namespace Sys2Proof.Machine

/-- Settles O33, by the two laws of one byte write: the written address and every other. -/
theorem memoryReadsTheLastWrite : Obligations.MemoryReadsTheLastWrite := by
  intro m a b v
  split
  · next h => exact Memory.read_write_same m v h
  · next h => exact Memory.read_write_other m v h

/-! ### Fetch (R53) -/

/-- The first byte of an instruction word counts 256 times (R53). -/
theorem wordOfBytes_toNat (hi lo : Byte) : (wordOfBytes hi lo).toNat = hi.toNat * 256 + lo.toNat := by
  rw [wordOfBytes, BitVec.toNat_append, ← Nat.shiftLeft_add_eq_or_of_lt lo.isLt, Nat.shiftLeft_eq]

/-- The port reduces an address by itself (R51). -/
theorem State.memRead_mod (s : State) (a : Nat) : s.memRead (a % 4096) = s.memRead a :=
  Memory.read_memIndex s.mem a

/-- Settles O6: the numeric value of the two bytes at `PC`, and `State.fetchWord_congr` for the aliases. -/
theorem fetchReducesTheProgramCounter : Obligations.FetchReducesTheProgramCounter := by
  intro s
  refine ⟨?_, fun w hw => ⟨State.fetchWord_congr rfl hw.symm, rfl⟩⟩
  rw [State.memRead_mod, State.memRead_mod]
  exact wordOfBytes_toNat _ _

/-! ### A store over the next instruction (R61) -/

/-- After a block store, a byte of the block reads as the register stored there (R144, R51). -/
theorem State.memRead_storedRegBlock (s : State) {x k : RegIdx} (hk : k ≤ x) {a : Nat}
    (ha : a % 4096 = s.effAddr k.val % 4096) :
    (s.memWriteBytes (s.effAddr 0) (s.regBlock x)).memRead a = s.readV k := by
  have hlen := State.regBlock_length s x
  have hx := x.isLt
  have hkx : k.val < (s.regBlock x).length := by
    rw [hlen]
    exact Nat.lt_succ_of_le hk
  rw [State.memRead_memWriteBytes s (s.effAddr 0) a k.val (s.regBlock x) (by omega) hkx ha,
    State.regBlock_getElem]

/-- With `I` an alias of `PC`, the word fetched after a block store is registers 0 and 1 (R53, R144). -/
theorem State.fetchWord_storedRegBlock (s : State) {x : RegIdx} (hx : 1 ≤ x.val)
    (hpc : s.i.toNat % 4096 = s.pc.toNat % 4096) :
    (s.memWriteBytes (s.effAddr 0) (s.regBlock x)).fetchWord = wordOfBytes (s.readV 0) (s.readV 1) := by
  have hnext : (s.pc.toNat + 1) % 4096 = s.effAddr 1 % 4096 := by
    rw [State.effAddr]
    omega
  rw [State.fetchWord, State.memRead2, State.memWriteBytes_pc,
    State.memRead_storedRegBlock s (k := 0) (Fin.zero_le x) hpc.symm,
    State.memRead_storedRegBlock s (k := 1) (Fin.le_def.2 hx) hnext]

/-- Settles O32: the next step fetches what the store left. -/
theorem storedInstructionRunsNext : Obligations.StoredInstructionRunsNext := by
  intro x s hx hpc
  refine ⟨_, exec_stRegs x s, ?_⟩
  rw [step_eq, State.fetchWord_storedRegBlock s hx hpc]

end Sys2Proof.Machine
end

section
/-! PROOFS. The decoder against the opcode table and against the encoder: the decoder compares the fields that the table's
masks compare, an encoded instruction decodes to itself, a decoded word encodes to itself, and a word that no row selects
is a no-operation (spec/30_encoding.md). -/

namespace Sys2Proof

/-! ### The decoder and then the encoder (R72, R77) -/

theorem encodeA_of_op {w : Word} {op : Nibble} (hop : (fieldOp w).toNat = op.toNat) : encodeA op (fieldNNN w) = w := by
  rw [← BitVec.eq_of_toNat_eq hop, encodeA_fields]

theorem encodeXK_of_op {w : Word} {op : Nibble} (hop : (fieldOp w).toNat = op.toNat) :
    encodeXK op (fieldX w) (fieldKK w) = w := by
  rw [← BitVec.eq_of_toNat_eq hop, encodeXK_fields]

theorem encodeXS_of_op_kk {w : Word} {op : Nibble} {kk : Byte} (hop : (fieldOp w).toNat = op.toNat)
    (hkk : (fieldKK w).toNat = kk.toNat) : encodeXK op (fieldX w) kk = w := by
  rw [← BitVec.eq_of_toNat_eq hkk, encodeXK_of_op hop]

theorem encodeXY_of_op_n {w : Word} {op n : Nibble} (hop : (fieldOp w).toNat = op.toNat)
    (hn : (fieldN w).toNat = n.toNat) : encodeXYN op (fieldX w) (fieldY w) n = w := by
  rw [← BitVec.eq_of_toNat_eq hop, ← BitVec.eq_of_toNat_eq hn, encodeXYN_fields]

theorem encodeWord_decodeOp0 (w : Word) : encodeWord (decodeOp0 w) = w := by
  unfold decodeOp0
  split
  · next h => exact h.symm
  · split
    · next h => exact h.symm
    · rfl

theorem encodeWord_decodeLowNibbleZero {i : Instr} {w : Word} (h : fieldN w = 0 → encodeWord i = w) :
    encodeWord (decodeLowNibbleZero i w) = w := by
  unfold decodeLowNibbleZero
  split
  · next hn => exact h hn
  · rfl

theorem encodeWord_decodeOp8 {w : Word} (hop : (fieldOp w).toNat = 0x8) : encodeWord (decodeOp8 w) = w := by
  unfold decodeOp8
  split
  case h_10 => rfl
  all_goals next hn => exact encodeXY_of_op_n hop hn

theorem encodeWord_decodeOpE {w : Word} (hop : (fieldOp w).toNat = 0xE) : encodeWord (decodeOpE w) = w := by
  unfold decodeOpE
  split
  case h_3 => rfl
  all_goals next hkk => exact encodeXS_of_op_kk hop hkk

theorem encodeWord_decodeOpF {w : Word} (hop : (fieldOp w).toNat = 0xF) : encodeWord (decodeOpF w) = w := by
  unfold decodeOpF
  split
  case h_10 => rfl
  all_goals next hkk => exact encodeXS_of_op_kk hop hkk

/-- No bit of a word is dropped (R77): the decoder keeps every field that it does not compare. Its arms, and so the cases
here, are the selectors 0x0 to 0xF in order. -/
theorem encodeWord_decodeWord (w : Word) : encodeWord (decodeWord w) = w := by
  have hlt := (fieldOp w).isLt
  unfold decodeWord
  split
  case h_1 => exact encodeWord_decodeOp0 w
  case h_6 hop | h_10 hop => exact encodeWord_decodeLowNibbleZero fun hn => encodeXY_of_op_n hop (congrArg _ hn)
  case h_9 hop => exact encodeWord_decodeOp8 hop
  case h_15 hop => exact encodeWord_decodeOpE hop
  case h_16 => exact encodeWord_decodeOpF (by simp only [imp_false] at *; omega)
  case h_2 hop | h_3 hop | h_11 hop | h_12 hop => exact encodeA_of_op hop
  case h_14 hop => exact encodeXY_of_op_n hop rfl
  all_goals next hop => exact encodeXK_of_op hop

/-! ### The decoder and the opcode table (R75, R76) -/

theorem mnemonic_decodeLowNibbleZero_congr {w v : Word} {i j : Instr} (hij : i.mnemonic = j.mnemonic)
    (hn : fieldN w = fieldN v) :
    (decodeLowNibbleZero i w).mnemonic = (decodeLowNibbleZero j v).mnemonic := by
  unfold decodeLowNibbleZero
  rw [hn]
  split
  · exact hij
  · rfl

theorem mnemonic_decodeOp8_congr {w v : Word} (hn : fieldN w = fieldN v) :
    (decodeOp8 w).mnemonic = (decodeOp8 v).mnemonic := by
  unfold decodeOp8
  rw [hn]
  split <;> rfl

theorem mnemonic_decodeOpE_congr {w v : Word} (hkk : fieldKK w = fieldKK v) :
    (decodeOpE w).mnemonic = (decodeOpE v).mnemonic := by
  unfold decodeOpE
  rw [hkk]
  split <;> rfl

theorem mnemonic_decodeOpF_congr {w v : Word} (hkk : fieldKK w = fieldKK v) :
    (decodeOpF w).mnemonic = (decodeOpF v).mnemonic := by
  unfold decodeOpF
  rw [hkk]
  split <;> rfl

/-- Under the ten selectors that have one instruction each, `op` alone decides. -/
theorem mnemonic_decodeWord_of_op {w v : Word} (hop : fieldOp w = fieldOp v)
    (h : (fieldOp v).toNat ∈ [0x1, 0x2, 0x3, 0x4, 0x6, 0x7, 0xA, 0xB, 0xC, 0xD]) :
    (decodeWord w).mnemonic = (decodeWord v).mnemonic := by
  simp only [List.mem_cons, List.not_mem_nil, or_false] at h
  obtain h | h | h | h | h | h | h | h | h | h := h <;> simp [decodeWord, hop, h, Instr.mnemonic]

/-- Under the selectors of format `XY`, `op` and `n` decide. -/
theorem mnemonic_decodeWord_of_op_n {w v : Word} (hop : fieldOp w = fieldOp v) (hn : fieldN w = fieldN v)
    (h : (fieldOp v).toNat ∈ [0x5, 0x8, 0x9]) : (decodeWord w).mnemonic = (decodeWord v).mnemonic := by
  simp only [List.mem_cons, List.not_mem_nil, or_false] at h
  obtain h | h | h := h <;> simp only [decodeWord, hop, h]
  · exact mnemonic_decodeLowNibbleZero_congr rfl hn
  · exact mnemonic_decodeOp8_congr hn
  · exact mnemonic_decodeLowNibbleZero_congr rfl hn

/-- Under the selectors of format `XS`, `op` and `kk` decide. -/
theorem mnemonic_decodeWord_of_op_kk {w v : Word} (hop : fieldOp w = fieldOp v) (hkk : fieldKK w = fieldKK v)
    (h : (fieldOp v).toNat ∈ [0xE, 0xF]) : (decodeWord w).mnemonic = (decodeWord v).mnemonic := by
  simp only [List.mem_cons, List.not_mem_nil, or_false] at h
  obtain h | h := h <;> simp only [decodeWord, hop, h]
  · exact mnemonic_decodeOpE_congr hkk
  · exact mnemonic_decodeOpF_congr hkk

/-- The four masks of the table, and the selectors each is used under. -/
theorem opcodeRows_mask : ∀ r ∈ opcodeRows,
    r.mask = 0xFFFF ∨
    (r.mask = 0xF000 ∧ (fieldOp r.code).toNat ∈ [0x1, 0x2, 0x3, 0x4, 0x6, 0x7, 0xA, 0xB, 0xC, 0xD]) ∨
    (r.mask = 0xF00F ∧ (fieldOp r.code).toNat ∈ [0x5, 0x8, 0x9]) ∨
    (r.mask = 0xF0FF ∧ (fieldOp r.code).toNat ∈ [0xE, 0xF]) := by decide

/-- No code has a bit outside its mask. -/
theorem opcodeRows_code_and_mask : ∀ r ∈ opcodeRows, r.code &&& r.mask = r.code := by decide

/-- The table's match column, read as words, decodes to the table's mnemonic column. -/
theorem mnemonic_decodeWord_code : ∀ r ∈ opcodeRows, (decodeWord r.code).mnemonic = r.mnemonic := by decide

theorem opcodeRows_mnemonic_ne : ∀ r ∈ opcodeRows, r.mnemonic ≠ "NOP_UNMATCHED" := by decide

/-- A word that a row selects decodes as the row's own code does: it has the same selector fields. -/
theorem mnemonic_decodeWord_of_selects {r : OpcodeRow} {w : Word} (hr : r ∈ opcodeRows) (h : r.selects w = true) :
    (decodeWord w).mnemonic = r.mnemonic := by
  have hc := opcodeRows_code_and_mask r hr
  have hm := opcodeRows_mask r hr
  rw [← mnemonic_decodeWord_code r hr]
  obtain ⟨m, mask, code⟩ := r
  obtain rfl | ⟨rfl, hop⟩ | ⟨rfl, hop⟩ | ⟨rfl, hop⟩ := hm
  · rw [OpcodeRow.selects_FFFF, decide_eq_true_eq] at h
    rw [h]
  · rw [OpcodeRow.selects_F000 m w hc, decide_eq_true_eq] at h
    exact mnemonic_decodeWord_of_op h hop
  · rw [OpcodeRow.selects_F00F m w hc, decide_eq_true_eq] at h
    obtain ⟨hopw, hn⟩ := h
    exact mnemonic_decodeWord_of_op_n hopw hn hop
  · rw [OpcodeRow.selects_F0FF m w hc, decide_eq_true_eq] at h
    obtain ⟨hopw, hkk⟩ := h
    exact mnemonic_decodeWord_of_op_kk hopw hkk hop

theorem isUnmatched_iff (w : Word) : isUnmatched w = true ↔ ∀ r ∈ opcodeRows, r.selects w = false := by
  simp [isUnmatched]

/-- A decoded word is well-formed: were an unmatched word selected by a row, it would decode to that row's mnemonic. -/
theorem decodeWord_wf (w : Word) : (decodeWord w).wf = true := by
  cases hi : decodeWord w
  case nopUnmatched v =>
    have hv : v = w := by simpa [hi, encodeWord] using encodeWord_decodeWord w
    subst hv
    refine (isUnmatched_iff v).2 fun r hr => Bool.eq_false_iff.2 fun hsel => ?_
    have hmn := mnemonic_decodeWord_of_selects hr hsel
    rw [hi] at hmn
    exact opcodeRows_mnemonic_ne r hr hmn.symm
  all_goals rfl

/-- Every instruction's row selects its word: the lemmas of Laws/PerInstr.lean, one per constructor (R75). -/
theorem rowSelects : (i : Instr) → Laws.RowSelects.Statement i
  | .cls => Laws.RowSelects.cls
  | .ret => Laws.RowSelects.ret
  | .jp nnn => Laws.RowSelects.jp nnn
  | .call nnn => Laws.RowSelects.call nnn
  | .seImm x kk => Laws.RowSelects.seImm x kk
  | .sneImm x kk => Laws.RowSelects.sneImm x kk
  | .seReg x y => Laws.RowSelects.seReg x y
  | .ldImm x kk => Laws.RowSelects.ldImm x kk
  | .addImm x kk => Laws.RowSelects.addImm x kk
  | .ldReg x y => Laws.RowSelects.ldReg x y
  | .orReg x y => Laws.RowSelects.orReg x y
  | .andReg x y => Laws.RowSelects.andReg x y
  | .xorReg x y => Laws.RowSelects.xorReg x y
  | .addReg x y => Laws.RowSelects.addReg x y
  | .sub x y => Laws.RowSelects.sub x y
  | .shr x y => Laws.RowSelects.shr x y
  | .subn x y => Laws.RowSelects.subn x y
  | .shl x y => Laws.RowSelects.shl x y
  | .sneReg x y => Laws.RowSelects.sneReg x y
  | .ldI nnn => Laws.RowSelects.ldI nnn
  | .jpV0 nnn => Laws.RowSelects.jpV0 nnn
  | .rnd x kk => Laws.RowSelects.rnd x kk
  | .drw x y n => Laws.RowSelects.drw x y n
  | .skp x => Laws.RowSelects.skp x
  | .sknp x => Laws.RowSelects.sknp x
  | .ldVxDt x => Laws.RowSelects.ldVxDt x
  | .ldVxK x => Laws.RowSelects.ldVxK x
  | .ldDtVx x => Laws.RowSelects.ldDtVx x
  | .ldStVx x => Laws.RowSelects.ldStVx x
  | .addI x => Laws.RowSelects.addI x
  | .ldF x => Laws.RowSelects.ldF x
  | .ldB x => Laws.RowSelects.ldB x
  | .stRegs x => Laws.RowSelects.stRegs x
  | .ldRegs x => Laws.RowSelects.ldRegs x
  | .nopUnmatched w => Laws.RowSelects.nopUnmatched w

theorem mnemonic_decodeWord_of_isUnmatched {w : Word} (h : isUnmatched w = true) :
    (decodeWord w).mnemonic = "NOP_UNMATCHED" := by
  obtain ⟨r, hr, -, hsel⟩ | ⟨hmn, -⟩ := rowSelects (decodeWord w) (decodeWord_wf w)
  · rw [encodeWord_decodeWord, (isUnmatched_iff w).1 h r hr] at hsel
    cases hsel
  · exact hmn

theorem eq_nopUnmatched_of_mnemonic {i : Instr} (h : i.mnemonic = "NOP_UNMATCHED") :
    i = .nopUnmatched (encodeWord i) := by
  cases i
  case nopUnmatched v => rfl
  all_goals simp [Instr.mnemonic] at h

/-- An unmatched word decodes to NOP_UNMATCHED with the word kept (R77). -/
theorem decodeWord_of_isUnmatched {w : Word} (h : isUnmatched w = true) : decodeWord w = .nopUnmatched w := by
  rw [eq_nopUnmatched_of_mnemonic (mnemonic_decodeWord_of_isUnmatched h), encodeWord_decodeWord]

/-- The first row that selects a word names the instruction; a word without such a row is unmatched (R75, R77). -/
theorem mnemonic_decodeWord (w : Word) : (decodeWord w).mnemonic = tableMnemonic w := by
  unfold tableMnemonic
  split
  · next r hr =>
    have hsel : r.selects w = true := by simpa using List.find?_some hr
    exact mnemonic_decodeWord_of_selects (List.mem_of_find?_eq_some hr) hsel
  · next hnone =>
    have hw : isUnmatched w = true :=
      (isUnmatched_iff w).2 fun r hr => by simpa using List.find?_eq_none.1 hnone r hr
    exact mnemonic_decodeWord_of_isUnmatched hw

/-- Two rows whose codes differ under both masks select no word in common. -/
theorem OpcodeRow.not_selects_both {r q : OpcodeRow} (h : r.code &&& q.mask ≠ q.code &&& r.mask) (w : Word) :
    ¬(r.selects w = true ∧ q.selects w = true) := by
  simp only [OpcodeRow.selects, decide_eq_true_eq]
  rintro ⟨hr, hq⟩
  refine h ?_
  rw [← hr, ← hq, BitVec.and_assoc, BitVec.and_assoc, BitVec.and_comm r.mask]

theorem opcodeRows_pairwise_code_ne :
    opcodeRows.Pairwise fun r q => r.code &&& q.mask ≠ q.code &&& r.mask := by decide

/-! ### The encoder and then the decoder (R70, R73, R75) -/

/-- The bytes of an instruction are its word in memory order, so `decode` reads that word back (R53, R70). -/
theorem decode_encode_append (i : Instr) (rest : List Byte) :
    decode (encode i ++ rest) = .ok (decodeWord (encodeWord i), rest) := by
  simp [decode, encode]

/-- A well-formed instruction is decoded from its own word, operands and all: the decoder reads the fields that the
encoder filled. -/
theorem decodeWord_encodeWord {i : Instr} (h : i.wf = true) : decodeWord (encodeWord i) = i := by
  cases i
  case cls | ret => decide
  case jp | call | ldI | jpV0 | seImm | sneImm | ldImm | addImm | rnd | drw => simp [encodeWord, decodeWord]
  case seReg | sneReg => simp [encodeWord, decodeWord, decodeLowNibbleZero]
  case ldReg | orReg | andReg | xorReg | addReg | sub | shr | subn | shl => simp [encodeWord, decodeWord, decodeOp8]
  case skp | sknp => simp [encodeWord, decodeWord, decodeOpE]
  case ldVxDt | ldVxK | ldDtVx | ldStVx | addI | ldF | ldB | stRegs | ldRegs =>
    simp [encodeWord, decodeWord, decodeOpF]
  case nopUnmatched w => exact decodeWord_of_isUnmatched h

/-! ### The statements -/

/-- Settles O8: `decode` reads the encoded word back, and `decodeWord` its fields. -/
theorem decodeOfEncodeIsIdentity : Obligations.DecodeOfEncodeIsIdentity := by
  intro i rest hwf
  rw [decode_encode_append, decodeWord_encodeWord hwf]

/-- Settles O9: well-formed because the decoder misses no row, and no bit is lost under any selector. -/
theorem encodeOfDecodeIsIdentity : Obligations.EncodeOfDecodeIsIdentity :=
  fun w => ⟨decodeWord_wf w, encodeWord_decodeWord w⟩

/-- Settles O10: the rows are pairwise disjoint because of their codes and masks alone. -/
theorem decoderFollowsTheOpcodeTable : Obligations.DecoderFollowsTheOpcodeTable :=
  ⟨rfl, opcodeRows_pairwise_code_ne.imp OpcodeRow.not_selects_both, mnemonic_decodeWord⟩

/-- Settles O7, by evaluation. -/
theorem writtenOutWordsDecode : Obligations.WrittenOutWordsDecode := by
  unfold Obligations.WrittenOutWordsDecode
  decide

end Sys2Proof

namespace Sys2Proof.Machine

/-! ### Steps (R71) -/

/-- The advance of `PC` by 2, modulo 65536 (R23). -/
theorem State.advancePc_eq (s : State) :
    s.advancePc = { s with pc := BitVec.ofNat 16 ((s.pc.toNat + 2) % 65536) } := by
  rw [← pc_add_two, BitVec.ofNat_toNat, BitVec.setWidth_eq]
  rfl

/-- Settles O5: the two bytes at `PC` are the word that the step fetches. -/
theorem fetchDecodeExecute : Obligations.FetchDecodeExecute := by
  intro s i h
  have hi : decodeWord s.fetchWord = i := congrArg Prod.fst (Except.ok.inj h)
  rw [← State.advancePc_eq, ← hi]
  rfl

/-- Settles O11: the unmatched word decodes to NOP_UNMATCHED, which leaves the advanced state as it is. -/
theorem unmatchedWordIsANoOperation : Obligations.UnmatchedWordIsANoOperation := by
  refine ⟨exec_nopUnmatched, fun s h => ?_⟩
  rw [step, decodeWord_of_isUnmatched h, exec_nopUnmatched, State.advancePc_eq]

end Sys2Proof.Machine
end

section
/-! PROOFS. Control flow: the jumps, the call and the return, and the compare-skips (spec/40_control_flow.md). -/

namespace Sys2Proof.Machine

/-! ### Jumps (R101, R107) -/

/-- Settles O13: the target is the immediate, zero-extended. -/
theorem jumpWritesItsTarget : Obligations.JumpWritesItsTarget :=
  fun nnn s => ⟨_, exec_jp nnn s, rfl, addrImm_toNat nnn⟩

/-- The sum of a byte and a 12-bit address needs no reduction: it stays below 65536 (R107). -/
theorem zextByte_add_addrImm_toNat (b : Byte) (nnn : Addr12) :
    (zextByte b + addrImm nnn).toNat = b.toNat + nnn.toNat := by
  have hb := b.isLt
  have hnnn := nnn.isLt
  rw [BitVec.toNat_add, zextByte_toNat, addrImm_toNat, Nat.mod_eq_of_lt (by omega)]

/-- Settles O14: the 16-bit sum does not wrap. -/
theorem jumpWithOffsetAddsRegisterZero : Obligations.JumpWithOffsetAddsRegisterZero :=
  fun nnn s => ⟨_, exec_jpV0 nnn s, rfl, zextByte_add_addrImm_toNat (s.readV 0) nnn⟩

/-! ### Call and return (R100, R102) -/

/-- Settles O12: RET is a pop, and the popped value goes to `PC`. -/
theorem returnPopsIntoProgramCounter : Obligations.ReturnPopsIntoProgramCounter :=
  fun s => ⟨_, exec_ret s, rfl, State.popSp_toNat s, rfl⟩

/-- Settles O15: CALL is a push of `PC`, and then a jump. -/
theorem callPushesTheReturnAddress : Obligations.CallPushesTheReturnAddress :=
  fun nnn s => ⟨_, exec_call nnn s, rfl, State.push_stack_same s s.pc,
    fun _ hk hne => State.push_stack_other s s.pc hk hne, State.push_sp_toNat s s.pc, addrImm_toNat nnn⟩

/-- Where the next pop takes its value depends on `SP` alone (R27). -/
theorem State.popSp_congr {s t : State} (hsp : t.sp = s.sp) : t.popSp = s.popSp := by
  rw [State.popSp, State.popSp, hsp]

/-- The value of the next pop depends on the stack array and `SP` alone (R27). -/
theorem State.popValue_congr {s t : State} (hstack : t.stack = s.stack) (hsp : t.sp = s.sp) :
    t.popValue = s.popValue := by
  simp only [State.popValue, State.popSp_congr hsp, hstack]

/-- Settles O16: RET pops from the later state what it would pop right after the push of the CALL. -/
theorem callThenReturnComesBack : Obligations.CallThenReturnComesBack := by
  intro nnn s
  refine ⟨_, exec_call nnn s, fun u hstack hsp => ⟨_, exec_ret u, ?_⟩⟩
  have hpopSp : u.popSp = s.sp := (State.popSp_congr (s := s.push s.pc) hsp).trans (State.popSp_push s s.pc)
  have hpopValue : u.popValue = s.pc :=
    (State.popValue_congr (s := s.push s.pc) hstack hsp).trans (State.popValue_push s s.pc)
  rw [State.popped, hpopSp, hpopValue]
  rfl

/-! ### Compare-skips (R103 to R106, R108) -/

/-- A skip on equal bytes: the bytes are compared as unsigned numbers. -/
theorem State.skipIf_beq_pc_toNat (s : State) (a b : Byte) :
    (s.skipIf (a == b)).pc.toNat = if a.toNat = b.toNat then (s.pc.toNat + 2) % 65536 else s.pc.toNat := by
  simp only [State.skipIf_pc, beq_iff_eq, BitVec.toNat_eq]
  split
  · exact pc_add_two s.pc
  · rfl

/-- A skip on different bytes. -/
theorem State.skipIf_bne_pc_toNat (s : State) (a b : Byte) :
    (s.skipIf (a != b)).pc.toNat = if a.toNat = b.toNat then s.pc.toNat else (s.pc.toNat + 2) % 65536 := by
  simp only [State.skipIf_pc, bne_iff_ne, ne_eq, BitVec.toNat_eq, ite_not]
  split
  · rfl
  · exact pc_add_two s.pc

/-- Settles O19: each of the four is a skip on equal or on different bytes, and a skip writes `PC` only. -/
theorem compareSkips : Obligations.CompareSkips :=
  fun x y kk s =>
    ⟨⟨_, exec_seImm x kk s, State.skipIf_frame s _, State.skipIf_beq_pc_toNat s (s.readV x) kk⟩,
      ⟨_, exec_sneImm x kk s, State.skipIf_frame s _, State.skipIf_bne_pc_toNat s (s.readV x) kk⟩,
      ⟨_, exec_seReg x y s, State.skipIf_frame s _, State.skipIf_beq_pc_toNat s (s.readV x) (s.readV y)⟩,
      ⟨_, exec_sneReg x y s, State.skipIf_frame s _, State.skipIf_bne_pc_toNat s (s.readV x) (s.readV y)⟩⟩

end Sys2Proof.Machine
end

section
/-! PROOFS. Register loads, arithmetic, logic, shifts and the random byte: the number each result stands for, the number
each flag stands for, and where the writes leave them (spec/41_register_alu.md). -/

namespace Sys2Proof.Machine

/-! ### Where a register write leaves its value (R20, R132) -/

theorem State.readV_writeV_same (s : State) (x : RegIdx) (b : Byte) : (s.writeV x b).readV x = b := by
  rw [State.readV_writeV, if_pos rfl]

theorem State.readV_writeV_other (s : State) {x j : RegIdx} (b : Byte) (hj : j ≠ x) :
    (s.writeV x b).readV j = s.readV j := by
  rw [State.readV_writeV, if_neg hj]

/-- What a flag-writing instruction leaves in the registers, the result and the flag read as numbers. The result is
written last, so with `x` = 0xF it survives the flag write (R132). -/
theorem State.readV_writeFlagThenResult_toNat (s : State) (x : RegIdx) {f : Bool} {b : Byte} {result flag : Nat}
    (hb : b.toNat = result) (hf : (flagByte f).toNat = flag) :
    ((s.writeFlagThenResult x f b).readV x).toNat = result ∧
    (x ≠ 15 → ((s.writeFlagThenResult x f b).readV 15).toNat = flag) ∧
    ∀ j, j ≠ x → j ≠ 15 → (s.writeFlagThenResult x f b).readV j = s.readV j := by
  refine ⟨?_, fun hx => ?_, fun j hjx hj => ?_⟩
  · rw [State.readV_writeFlagThenResult, if_pos rfl, hb]
  · rw [State.readV_writeFlagThenResult, if_neg hx.symm, if_pos rfl, hf]
  · rw [State.readV_writeFlagThenResult, if_neg hjx, if_neg hj]

/-! ### Flags as numbers (R133, R134, R128, R130) -/

theorem flagByte_toNat (f : Bool) : (flagByte f).toNat = f.toNat := by
  cases f <;> rfl

theorem flagByte_decide_toNat (p : Prop) [Decidable p] : (flagByte (decide p)).toNat = if p then 1 else 0 := by
  rw [flagByte_toNat, Bool.toNat, Bool.cond_decide]

theorem carryFlag_toNat (a b : Byte) :
    (flagByte (carryFlag a b)).toNat = if a.toNat + b.toNat > 255 then 1 else 0 :=
  flagByte_decide_toNat _

theorem greaterFlag_toNat (a b : Byte) : (flagByte (greaterFlag a b)).toNat = if a.toNat > b.toNat then 1 else 0 :=
  flagByte_decide_toNat _

/-- Bit 0 is the remainder of the halving. -/
theorem shrFlag_toNat (a : Byte) : (flagByte (shrFlag a)).toNat = a.toNat % 2 := by
  rw [flagByte_toNat, shrFlag, BitVec.getLsbD, Nat.toNat_testBit, Nat.pow_zero, Nat.div_one]

/-- Bit 7 is the only bit at or above 128. -/
theorem shlFlag_toNat (a : Byte) : (flagByte (shlFlag a)).toNat = a.toNat / 128 := by
  have ha := a.isLt
  rw [flagByte_toNat, shlFlag, BitVec.getLsbD, Nat.toNat_testBit]
  omega

/-! ### Results as numbers -/

/-- Subtraction modulo 256 is the remainder of the signed difference (R127, R129). -/
theorem byte_sub_toNat (a b : Byte) : ((a - b).toNat : Int) = (a.toNat - b.toNat : Int) % 256 := by
  have hb := b.isLt
  rw [BitVec.toNat_sub]
  omega

theorem byte_shiftRight_one_toNat (a : Byte) : (a >>> 1).toNat = a.toNat / 2 := by
  rw [BitVec.toNat_ushiftRight, Nat.shiftRight_one]

theorem byte_shiftLeft_one_toNat (a : Byte) : (a <<< 1).toNat = 2 * a.toNat % 256 := by
  rw [BitVec.toNat_shiftLeft, Nat.shiftLeft_eq, Nat.mul_comm]

/-- A bit that is 0 in the mask is 0 in the masked byte, so the mask bounds it (R131). -/
theorem maskedRandom_toNat_le (r kk : Byte) : (maskedRandom r kk).toNat ≤ kk.toNat := by
  rw [maskedRandom, BitVec.toNat_and]
  exact Nat.and_le_right

/-! ### Arithmetic and shifts with a flag (R126 to R130) -/

/-- Settles O22: the two writes of R132 with the carry and the wrapped sum. -/
theorem addSetsCarryFlag : Obligations.AddSetsCarryFlag :=
  fun x y s => ⟨_, exec_addReg x y s, rfl,
    State.readV_writeFlagThenResult_toNat s x (BitVec.toNat_add (s.readV x) (s.readV y)) (carryFlag_toNat _ _)⟩

/-- What both subtractions leave in the registers: `x` is the destination, `a` the minuend, `b` the subtrahend. -/
theorem State.readV_writeDifference (s : State) (x : RegIdx) (a b : Byte) :
    (((s.writeFlagThenResult x (greaterFlag a b) (a - b)).readV x).toNat : Int) = (a.toNat - b.toNat : Int) % 256 ∧
    (x ≠ 15 → ((s.writeFlagThenResult x (greaterFlag a b) (a - b)).readV 15).toNat =
      if a.toNat > b.toNat then 1 else 0) ∧
    ∀ j, j ≠ x → j ≠ 15 → (s.writeFlagThenResult x (greaterFlag a b) (a - b)).readV j = s.readV j := by
  obtain ⟨hresult, hrest⟩ := State.readV_writeFlagThenResult_toNat s x (b := a - b) rfl (greaterFlag_toNat a b)
  exact ⟨by rw [hresult, byte_sub_toNat], hrest⟩

/-- Settles O23: SUBN is SUB with minuend and subtrahend exchanged, the destination the same. -/
theorem subtractionsSetStrictFlag : Obligations.SubtractionsSetStrictFlag :=
  fun x y s =>
    ⟨⟨_, exec_sub x y s, rfl, State.readV_writeDifference s x (s.readV x) (s.readV y)⟩,
      ⟨_, exec_subn x y s, rfl, State.readV_writeDifference s x (s.readV y) (s.readV x)⟩⟩

/-- Settles O24: the two writes of R132 with the bit shifted out and the shifted value; `y` is not read. -/
theorem shiftsKeepTheBitShiftedOut : Obligations.ShiftsKeepTheBitShiftedOut :=
  fun x y s =>
    ⟨⟨_, exec_shr x y s, rfl,
        State.readV_writeFlagThenResult_toNat s x (byte_shiftRight_one_toNat _) (shrFlag_toNat _)⟩,
      ⟨_, exec_shl x y s, rfl,
        State.readV_writeFlagThenResult_toNat s x (byte_shiftLeft_one_toNat _) (shlFlag_toNat _)⟩⟩

/-! ### One register written, no flag (R120 to R125) -/

/-- Settles O20: each of the three is one register write. -/
theorem loadsAndImmediateAddWriteOneRegister : Obligations.LoadsAndImmediateAddWriteOneRegister := by
  intro x y kk s
  refine ⟨⟨_, exec_ldImm x kk s, rfl, State.readV_writeV_same s x _, fun j => State.readV_writeV_other s _⟩,
    ⟨_, exec_addImm x kk s, rfl, ?_, fun j => State.readV_writeV_other s _⟩,
    ⟨_, exec_ldReg x y s, rfl, State.readV_writeV_same s x _, fun j => State.readV_writeV_other s _⟩⟩
  rw [State.readV_writeV_same]
  exact BitVec.toNat_add _ _

/-- Settles O21: each of the three is one register write, and the combined byte is read bit by bit. -/
theorem logicInstructionsAreBitwise : Obligations.LogicInstructionsAreBitwise := by
  intro x y s
  refine ⟨⟨_, exec_orReg x y s, rfl, fun b => ?_, fun j => State.readV_writeV_other s _⟩,
    ⟨_, exec_andReg x y s, rfl, fun b => ?_, fun j => State.readV_writeV_other s _⟩,
    ⟨_, exec_xorReg x y s, rfl, fun b => ?_, fun j => State.readV_writeV_other s _⟩⟩
  · rw [State.readV_writeV_same, BitVec.getLsbD_or]
  · rw [State.readV_writeV_same, BitVec.getLsbD_and]
  · rw [State.readV_writeV_same, BitVec.getLsbD_xor]

/-! ### The random byte (R131, R214) -/

/-- Only RND draws: the count is outside every other frame. -/
theorem exec_draws {i : Instr} {s t : State} (h : exec i s = .next t) (hrnd : ∀ x kk, i ≠ .rnd x kk) :
    t.draws = s.draws := by
  cases i with
  | rnd x kk => exact absurd rfl (hrnd x kk)
  | _ => exact (congrArg State.draws (exec_frame h) :)

/-- Settles O25: RND is one draw and then one register write, and no other instruction draws. -/
theorem randomIsMaskedAndDrawnOnce : Obligations.RandomIsMaskedAndDrawnOnce := by
  refine ⟨fun x kk s => ⟨_, exec_rnd x kk s, rfl, fun b => ?_, ?_, fun j => State.readV_writeV_other s.drawn _⟩,
    fun _ _ _ => exec_draws⟩
  · rw [State.readV_writeV_same]
    exact BitVec.getLsbD_and
  · rw [State.readV_writeV_same]
    exact maskedRandom_toNat_le _ _

end Sys2Proof.Machine
end

section
/-! PROOFS. The address register, the decimal digits and the register block in memory (spec/42_address_memory.md). -/

namespace Sys2Proof.Machine

/-! ### The address register (R140 to R142) -/

/-- The sum of ADD_I is taken modulo 65536 and not masked to an address (R141). -/
theorem add_zextByte_toNat (w : Word) (b : Byte) : (w + zextByte b).toNat = (w.toNat + b.toNat) % 65536 := by
  rw [BitVec.toNat_add, zextByte_toNat]

/-- Settles O27: each of the three is one write of `I`. -/
theorem addressRegisterWrites : Obligations.AddressRegisterWrites :=
  fun x nnn s =>
    ⟨⟨_, exec_ldI nnn s, rfl, addrImm_toNat nnn⟩,
      ⟨_, exec_addI x s, rfl, add_zextByte_toNat s.i (s.readV x)⟩,
      ⟨_, exec_ldF x s, rfl, glyphAddr_toNat (s.readV x)⟩⟩

/-! ### The decimal digits (R143) -/

/-- A decimal digit of a byte fits in a byte, so storing it loses nothing. -/
theorem decimalDigits_toNat (b : Byte) :
    (decimalDigits b)[0].toNat = b.toNat / 100 ∧ (decimalDigits b)[1].toNat = b.toNat / 10 % 10 ∧
    (decimalDigits b)[2].toNat = b.toNat % 10 := by
  have hb := b.isLt
  exact ⟨Nat.mod_eq_of_lt (by omega), Nat.mod_eq_of_lt (by omega), Nat.mod_eq_of_lt (by omega)⟩

/-- After the store of the digits of `b`, digit `k` is read at `I + k` (R143, R51). -/
theorem State.memRead_storedDigits (s : State) (b : Byte) {k : Nat} (hk : k < (decimalDigits b).length) :
    (s.memWriteBytes (s.effAddr 0) (decimalDigits b)).memRead (s.effAddr k) = (decimalDigits b)[k] :=
  State.memRead_memWriteBytes s (s.effAddr 0) (s.effAddr k) k (decimalDigits b) (by simp) hk rfl

/-- Settles O28: the three digits are one sequence of byte writes. -/
theorem decimalDigitsAreStored : Obligations.DecimalDigitsAreStored := by
  intro x s
  obtain ⟨hundreds, tens, ones⟩ := decimalDigits_toNat (s.readV x)
  refine ⟨_, exec_ldB x s, rfl, ?_, ?_, ?_,
    fun a => State.memRead_memWriteBytes_other s (s.effAddr 0) a (decimalDigits (s.readV x))⟩
  · rw [State.memRead_storedDigits s _ (by simp), hundreds]
  · rw [State.memRead_storedDigits s _ (by simp), tens]
  · rw [State.memRead_storedDigits s _ (by simp), ones]

/-! ### The register block (R144, R145) -/

/-- After a block store, a byte outside the block reads as before (R144, R51). -/
theorem State.memRead_storedRegBlock_other (s : State) {x : RegIdx} {a : Nat}
    (ha : ∀ k : RegIdx, k ≤ x → a % 4096 ≠ s.effAddr k.val % 4096) :
    (s.memWriteBytes (s.effAddr 0) (s.regBlock x)).memRead a = s.memRead a := by
  refine State.memRead_memWriteBytes_other s (s.effAddr 0) a (s.regBlock x) fun k hk => ?_
  rw [State.regBlock_length] at hk
  have hx := x.isLt
  exact ha ⟨k, by omega⟩ (Fin.le_def.2 (Nat.le_of_lt_succ hk))

/-- Settles O29: the register block is one sequence of byte writes, read inside the block and outside it. -/
theorem registersAreStored : Obligations.RegistersAreStored :=
  fun x s => ⟨_, exec_stRegs x s, rfl, fun _ hk => State.memRead_storedRegBlock s hk rfl,
    fun _ ha => State.memRead_storedRegBlock_other s ha⟩

theorem State.readV_loadedRegBlock (s : State) {x k : RegIdx} (hk : k ≤ x) :
    (s.setVs (s.regsFromMem x)).readV k = s.memRead (s.effAddr k.val) := by
  rw [State.readV_regsFromMem, if_pos hk]

theorem State.readV_loadedRegBlock_other (s : State) {x k : RegIdx} (hk : x < k) :
    (s.setVs (s.regsFromMem x)).readV k = s.readV k := by
  rw [State.readV_regsFromMem, if_neg (Fin.not_le.2 hk)]

/-- Settles O30: a block load writes the registers only. -/
theorem registersAreLoaded : Obligations.RegistersAreLoaded :=
  fun x s => ⟨_, exec_ldRegs x s, rfl, fun _ hk => State.readV_loadedRegBlock s hk,
    fun _ hk => State.readV_loadedRegBlock_other s hk⟩

/-- Settles O31: the load reads the addresses that the store wrote, because neither the store nor the change of the
registers moves `I`. -/
theorem storeThenLoadBringsRegistersBack : Obligations.StoreThenLoadBringsRegistersBack := by
  intro x s
  refine ⟨_, exec_stRegs x s, fun v => ⟨_, exec_ldRegs x _, fun k hk => ?_, fun k hk => ?_⟩⟩
  · rw [State.readV_loadedRegBlock _ hk]
    exact State.memRead_storedRegBlock s hk rfl
  · exact State.readV_loadedRegBlock_other _ hk

end Sys2Proof.Machine
end

section
/-! PROOFS. The display: the cleared framebuffer and its export, the cells and the flag that one sprite draw leaves, and
the second draw of the same sprite (spec/43_display.md). -/

namespace Sys2Proof.Machine

/-! ### The cleared framebuffer (R160, R213) -/

/-- Every exported element is the sentinel of a clear cell. -/
theorem fbExport_clear (cfg : Config.Sentinels) (s : State) :
    fbExport cfg (s.setFb Framebuffer.clear) = List.replicate 2048 cfg.clear := by
  refine List.eq_replicate_iff.2 ⟨?_, fun e he => ?_⟩
  · rw [fbExport, List.length_map, List.length_range]
  · obtain ⟨k, -, rfl⟩ := List.mem_map.1 he
    rw [State.setFb_fb, Framebuffer.cell_clear, if_neg Bool.false_ne_true]

/-- Settles O35: CLS is one framebuffer write. -/
theorem clearEmptiesTheFramebuffer : Obligations.ClearEmptiesTheFramebuffer :=
  fun s => ⟨_, exec_cls s, rfl, fun r c _ _ => Framebuffer.cell_clear r c, fun cfg => fbExport_clear cfg s⟩

/-! ### One draw (R161 to R164) -/

theorem flagByte_eq_one_iff (f : Bool) : flagByte f = 1 ↔ f = true := by
  cases f <;> decide

theorem flagByte_eq_zero_iff (f : Bool) : flagByte f = 0 ↔ f = false := by
  cases f <;> decide

/-- The covered cells in the terms of the draw: its origin and its rows. -/
theorem State.drawCovers_eq (s : State) (x y : RegIdx) (n : Nibble) : s.drawCovers x y n =
    spriteCovers (originColumn (s.readV x)) (originRow (s.readV y)) n.toNat s.spriteRow := rfl

/-- Some cell of the grid is set and under a set bit of the sprite (R164). -/
def State.drawCollides (s : State) (x y : RegIdx) (n : Nibble) : Prop :=
  ∃ r c, r < 32 ∧ c < 64 ∧ s.drawCovers x y n r c = true ∧ Framebuffer.cell s.fb r c = true

section
variable {x y : RegIdx} {n : Nibble} {s t : State}

theorem cell_of_exec_drw (h : exec (.drw x y n) s = .next t) {r c : Nat} (hr : r < 32) (hc : c < 64) :
    Framebuffer.cell t.fb r c = (Framebuffer.cell s.fb r c ^^ s.drawCovers x y n r c) := by
  cases h
  exact (drawSprite_spec s.fb _ _ n.toNat s.spriteRow).1 r c hr hc

/-- The flag register after a draw: nothing is written to it after the collision flag (R132, R164). -/
theorem readV_flag_of_exec_drw (h : exec (.drw x y n) s = .next t) :
    t.readV 15 = flagByte (s.drawResult x y n).2 := by
  cases h
  exact State.readV_writeV_same _ flagReg _

theorem readV_other_of_exec_drw (h : exec (.drw x y n) s = .next t) {j : RegIdx} (hj : j ≠ 15) :
    t.readV j = s.readV j := by
  cases h
  exact State.readV_writeV_other _ _ hj

theorem drawResult_flag_iff : (s.drawResult x y n).2 = true ↔ s.drawCollides x y n :=
  (drawSprite_spec s.fb _ _ n.toNat s.spriteRow).2

theorem flag_eq_one_iff_of_exec_drw (h : exec (.drw x y n) s = .next t) :
    t.readV 15 = 1 ↔ s.drawCollides x y n := by
  rw [readV_flag_of_exec_drw h, flagByte_eq_one_iff, drawResult_flag_iff]

theorem flag_eq_zero_iff_of_exec_drw (h : exec (.drw x y n) s = .next t) :
    t.readV 15 = 0 ↔ ¬ s.drawCollides x y n := by
  rw [readV_flag_of_exec_drw h, flagByte_eq_zero_iff, ← Bool.not_eq_true, drawResult_flag_iff]

/-- No collision, said of each covered cell. -/
theorem not_drawCollides_of_clear (hclear : ∀ r c, r < 32 → c < 64 → s.drawCovers x y n r c = true →
    Framebuffer.cell s.fb r c = false) : ¬ s.drawCollides x y n := by
  rintro ⟨r, c, hr, hc, hcov, hset⟩
  exact Bool.false_ne_true ((hclear r c hr hc hcov).symm.trans hset)

end

/-- Settles O36: the draw loop's cells and flag, and the one register write after it. -/
theorem drawFlipsTheCoveredCells : Obligations.DrawFlipsTheCoveredCells := by
  intro x y n s
  obtain ⟨t, h⟩ := exec_completes (.drw x y n) s
  exact ⟨t, h, exec_frame h, fun r c => cell_of_exec_drw h, (flag_eq_one_iff_of_exec_drw h).2,
    fun hclear => (flag_eq_zero_iff_of_exec_drw h).2 (not_drawCollides_of_clear hclear),
    fun j => readV_other_of_exec_drw h⟩

/-! ### The same draw again (R161, R164) -/

section
variable {x y : RegIdx} {n : Nibble} {s t u : State}

/-- A draw changes neither memory nor `I`, so with its origin kept the second draw covers the same cells. -/
theorem drawCovers_of_exec_drw (h : exec (.drw x y n) s = .next t)
    (hcol : originColumn (t.readV x) = originColumn (s.readV x))
    (hrow : originRow (t.readV y) = originRow (s.readV y)) : t.drawCovers x y n = s.drawCovers x y n := by
  have hrows : t.spriteRow = s.spriteRow := by
    cases h
    rfl
  rw [State.drawCovers_eq, State.drawCovers_eq, hcol, hrow, hrows]

/-- Each cell flips twice or not at all. -/
theorem fb_of_exec_drw_twice (h : exec (.drw x y n) s = .next t) (h' : exec (.drw x y n) t = .next u)
    (hcov : t.drawCovers x y n = s.drawCovers x y n) : u.fb = s.fb := by
  refine Framebuffer.ext_of_cell fun r c hr hc => ?_
  rw [cell_of_exec_drw h' hr hc, cell_of_exec_drw h hr hc, hcov, Bool.xor_assoc, Bool.xor_self, Bool.xor_false]

/-- A covered cell collides in the first draw if it was set and in the second if it was clear. -/
theorem drawCollides_twice_iff (h : exec (.drw x y n) s = .next t)
    (hcov : t.drawCovers x y n = s.drawCovers x y n) :
    (∃ r c, r < 32 ∧ c < 64 ∧ s.drawCovers x y n r c = true) ↔ s.drawCollides x y n ∨ t.drawCollides x y n := by
  constructor
  · rintro ⟨r, c, hr, hc, hbit⟩
    cases hset : Framebuffer.cell s.fb r c with
    | true => exact .inl ⟨r, c, hr, hc, hbit, hset⟩
    | false =>
      have hset' : Framebuffer.cell t.fb r c = true := by
        rw [cell_of_exec_drw h hr hc, hset, hbit, Bool.false_xor]
      exact .inr ⟨r, c, hr, hc, hcov ▸ hbit, hset'⟩
  · rintro (⟨r, c, hr, hc, hbit, -⟩ | ⟨r, c, hr, hc, hbit, -⟩)
    · exact ⟨r, c, hr, hc, hbit⟩
    · exact ⟨r, c, hr, hc, hcov ▸ hbit⟩

end

/-- Settles O37: the two draws cover the same cells, which flip twice and collide in one of the draws. -/
theorem drawTwiceRestoresTheFramebuffer : Obligations.DrawTwiceRestoresTheFramebuffer := by
  intro x y n s t h hcol hrow
  obtain ⟨u, h'⟩ := exec_completes (.drw x y n) t
  have hcov := drawCovers_of_exec_drw h hcol hrow
  refine ⟨u, h', fb_of_exec_drw_twice h h' hcov, ?_⟩
  rw [flag_eq_one_iff_of_exec_drw h, flag_eq_one_iff_of_exec_drw h']
  exact drawCollides_twice_iff h hcov

/-- A sprite of one full row covers the eight cells from its origin. -/
theorem State.drawCovers_fullRow {s : State} (x y : RegIdx) (hrow : s.memRead (s.effAddr 0) = 0xFF) (r c : Nat) :
    s.drawCovers x y 1 r c = true ↔
      r = (s.readV y).toNat % 32 ∧ ∃ k, k < 8 ∧ c = (s.readV x).toNat % 64 + k := by
  have hn : (1 : Nibble).toNat = 1 := rfl
  simp only [State.drawCovers, spriteCovers, hn, Bool.and_eq_true, decide_eq_true_eq]
  constructor
  · rintro ⟨hrect, -⟩
    exact ⟨by omega, c - (s.readV x).toNat % 64, by omega, by omega⟩
  · rintro ⟨rfl, k, hk, rfl⟩
    have hbit : (0xFF : Byte).getLsbD (7 - k) = true :=
      BitVec.getLsbD_allOnes.trans (decide_eq_true (by omega))
    rw [Nat.sub_self, Nat.add_sub_cancel_left, hrow]
    exact ⟨by omega, hbit⟩

/-- Settles O38: the eight cells are clear, so the first draw collides nowhere; they lie on the grid, so one of the two
draws collides. -/
theorem selfCancellingDraw : Obligations.SelfCancellingDraw := by
  intro x y s hx hy hrow hcol hclear
  obtain ⟨t, h⟩ := exec_completes (.drw x y 1) s
  obtain ⟨u, h', hfb, hflags⟩ := drawTwiceRestoresTheFramebuffer x y 1 s t h
    (congrArg originColumn (readV_other_of_exec_drw h hx)) (congrArg originRow (readV_other_of_exec_drw h hy))
  have hflag : t.readV 15 = 0 := (flag_eq_zero_iff_of_exec_drw h).2 <| not_drawCollides_of_clear fun r c _ _ hbit => by
    obtain ⟨rfl, k, hk, rfl⟩ := (State.drawCovers_fullRow x y hrow r c).1 hbit
    exact hclear k hk
  have hcorner := (State.drawCovers_fullRow x y hrow _ _).2 ⟨rfl, 0, by decide, rfl⟩
  have hone := hflags.1 ⟨_, _, Nat.mod_lt _ (by decide), by omega, hcorner⟩
  rw [hflag] at hone
  exact ⟨t, u, h, hflag, h', hone.resolve_left (by decide), hfb⟩

end Sys2Proof.Machine
end

section
/-! PROOFS. The keypad and the timers: the key skips, the moves between a register and a timer, the blocking key read and
the steps that wait at it (spec/44_keypad_timers.md). -/

namespace Sys2Proof.Machine

/-! ### The blocking key read (R173, R177) -/

/-- Fx0A with a key pressed, the answer given by the keys themselves. -/
theorem exec_ldVxK_of_lowest {s : State} {k : RegIdx} (x : RegIdx) (hk : s.keyPressed k = true)
    (hlow : ∀ j, j < k → s.keyPressed j = false) : exec (.ldVxK x) s = .next (s.writeV x (keyByte k)) :=
  exec_ldVxK_pressed x (State.lowestPressedKey_some.2 ⟨hk, hlow⟩)

/-- Fx0A with no key pressed, the answer given by the keys themselves. -/
theorem exec_ldVxK_of_none {s : State} (x : RegIdx) (hnone : ∀ k, s.keyPressed k = false) :
    exec (.ldVxK x) s = .next s.rewindPc :=
  exec_ldVxK_waiting x (State.lowestPressedKey_none.2 hnone)

/-- The number of the key is what is read back from the register. -/
theorem State.readV_writeV_keyByte_toNat (s : State) (x k : RegIdx) :
    ((s.writeV x (keyByte k)).readV x).toNat = k.val := by
  rw [State.readV_writeV_same, keyByte_toNat]

/-- Settles O41: with a key pressed Fx0A is one register write, with none it is the rewind of `PC`. -/
theorem keyReadTakesTheLowestKey : Obligations.KeyReadTakesTheLowestKey :=
  fun x s =>
    ⟨fun k hk hlow => ⟨_, exec_ldVxK_of_lowest x hk hlow, rfl, State.readV_writeV_keyByte_toNat s x k,
        fun _ => State.readV_writeV_other s _⟩,
      fun hnone => ⟨_, exec_ldVxK_of_none x hnone, rfl, pc_sub_two s.pc⟩⟩

/-! ### Steps at a blocking key read (R71, R173) -/

section
variable {x : RegIdx} {s : State} (hfetch : decodeWord s.fetchWord = .ldVxK x)
include hfetch

/-- The advance of the step and the rewind of Fx0A cancel, so the step leads back to the same state. -/
theorem step_ldVxK_waiting (hnone : ∀ k, s.keyPressed k = false) : step s = .next s := by
  rw [step, hfetch, exec_ldVxK_of_none (s := s.advancePc) x hnone, State.rewindPc_advancePc]

/-- The advance of the step stands, because the register write leaves `PC`. -/
theorem step_ldVxK_pressed {k : RegIdx} (hk : s.keyPressed k = true) (hlow : ∀ j, j < k → s.keyPressed j = false) :
    step s = .next (s.advancePc.writeV x (keyByte k)) := by
  rw [step, hfetch, exec_ldVxK_of_lowest (s := s.advancePc) x hk hlow]

end

/-- Settles O42: a waiting step leads back to its own state, and so does every run of such steps. -/
theorem blockingKeyReadWaits : Obligations.BlockingKeyReadWaits :=
  fun x s hfetch =>
    ⟨fun hnone => run_of_step_self (step_ldVxK_waiting hfetch hnone),
      fun k hk hlow => ⟨_, step_ldVxK_pressed hfetch hk hlow, pc_add_two s.pc,
        State.readV_writeV_keyByte_toNat s.advancePc x k⟩⟩

/-! ### Key skips (R170, R171, R176) -/

theorem keyIndex_eq_of_val {k : RegIdx} {b : Byte} (h : k.val = b.toNat % 16) : keyIndex b = k :=
  Fin.ext ((keyIndex_val b).trans h.symm)

/-- A skip taken when a flag is set. -/
theorem State.skipIf_pc_toNat (s : State) (c : Bool) :
    (s.skipIf c).pc.toNat = if c = true then (s.pc.toNat + 2) % 65536 else s.pc.toNat := by
  cases c
  · rfl
  · exact pc_add_two s.pc

/-- A skip taken when a flag is clear. -/
theorem State.skipIf_not_pc_toNat (s : State) (c : Bool) :
    (s.skipIf (!c)).pc.toNat = if c = true then s.pc.toNat else (s.pc.toNat + 2) % 65536 := by
  cases c
  · exact pc_add_two s.pc
  · rfl

/-- Settles O39: both are skips on the key that `V[x]` selects, and a skip writes `PC` only. -/
theorem skipsOnAKey : Obligations.SkipsOnAKey := by
  intro x k s hk
  rw [← keyIndex_eq_of_val hk]
  exact ⟨⟨_, exec_skp x s, State.skipIf_frame s _, State.skipIf_pc_toNat s _⟩,
    ⟨_, exec_sknp x s, State.skipIf_frame s _, State.skipIf_not_pc_toNat s _⟩⟩

/-! ### Moves between a register and a timer (R172, R174, R175, R178) -/

/-- Settles O40: one register write, one write of `DT`, one write of `ST`. -/
theorem timerInstructionsMoveOneByte : Obligations.TimerInstructionsMoveOneByte :=
  fun x s =>
    ⟨⟨_, exec_ldVxDt x s, rfl, State.readV_writeV_same s x s.dt, fun _ => State.readV_writeV_other s _⟩,
      exec_ldDtVx x s, exec_ldStVx x s⟩

end Sys2Proof.Machine
end

section
/-! PROOFS. What every step keeps, the operations of the external agents, and the runs made of both: timer ticks, key
writes, the two exports, completion, the invariant along a run, and a program that has ended (spec/60_exceptions.md). -/

namespace Sys2Proof.Machine

/-! ### The timers and the keypad along one instruction (R210, R212) -/

theorem exec_dt {i : Instr} {s t : State} (h : exec i s = .next t) (hldDtVx : ∀ x, i ≠ .ldDtVx x) : t.dt = s.dt := by
  cases i with
  | ldDtVx x => exact absurd rfl (hldDtVx x)
  | _ => exact (congrArg State.dt (exec_frame h) :)

theorem exec_st {i : Instr} {s t : State} (h : exec i s = .next t) (hldStVx : ∀ x, i ≠ .ldStVx x) : t.st = s.st := by
  cases i with
  | ldStVx x => exact absurd rfl (hldStVx x)
  | _ => exact (congrArg State.st (exec_frame h) :)

/-- The core never writes a key flag. -/
theorem exec_key {i : Instr} {s t : State} (h : exec i s = .next t) : t.key = s.key := by
  cases i <;> exact (congrArg State.key (exec_frame h) :)

/-! ### Timer ticks (R210) -/

theorem tickCounter_toNat_ite (b : Byte) : (tickCounter b).toNat = if b.toNat > 0 then b.toNat - 1 else 0 := by
  rw [tickCounter_toNat]
  split <;> omega

/-- Ticks in a row lower both counters by their number, stopping at 0. -/
theorem runOps_replicate_timerTick (n : Nat) (s : State) :
    ∃ t, runOps (List.replicate n .timerTick) s = .next t ∧ t.dt.toNat = s.dt.toNat - n ∧
      t.st.toNat = s.st.toNat - n := by
  induction n generalizing s with
  | zero => exact ⟨s, rfl, rfl, rfl⟩
  | succ n ih =>
    obtain ⟨t, ht, hdt, hst⟩ := ih (timerTick s)
    have hsub : ∀ b : Byte, (tickCounter b).toNat - n = b.toNat - (n + 1) := by
      intro b
      rw [tickCounter_toNat, Nat.sub_sub, Nat.add_comm]
    exact ⟨t, ht, hdt.trans (hsub s.dt), hst.trans (hsub s.st)⟩

/-- Settles O43: a tick is two counter writes, and `DT` and `ST` are each in one instruction's frame only. -/
theorem ticksCountDownToZero : Obligations.TicksCountDownToZero :=
  ⟨fun s => ⟨rfl, tickCounter_toNat_ite s.dt, tickCounter_toNat_ite s.st⟩, runOps_replicate_timerTick,
    fun s _ h => ⟨exec_dt (s := s.advancePc) h, exec_st (s := s.advancePc) h⟩⟩

/-! ### Runs (R200, R215) -/

theorem step_completes (s : State) : ∃ t, step s = .next t :=
  exec_completes _ _

theorem AgentOp.apply_completes (op : AgentOp) (s : State) : ∃ t, op.apply s = .next t := by
  cases op with
  | step => exact step_completes s
  | timerTick | keyWrite | fbExport | timerExport => exact ⟨_, rfl⟩

/-- A sequence of operations completes, and what each single operation keeps holds at its end. -/
theorem runOps_keeps {P : State → Prop} (hP : ∀ op s t, P s → AgentOp.apply op s = .next t → P t) (ops : List AgentOp)
    {s : State} (hs : P s) : ∃ t, runOps ops s = .next t ∧ P t := by
  induction ops generalizing s with
  | nil => exact ⟨s, rfl, hs⟩
  | cons op ops ih =>
    obtain ⟨u, hu⟩ := op.apply_completes s
    rw [runOps, hu]
    exact ih (hP op s u hs hu)

/-- Ticks, key writes and exports leave memory alone, and a step keeps its canonical form. -/
theorem AgentOp.apply_inv (op : AgentOp) (s t : State) (hs : s.Inv) (h : op.apply s = .next t) : t.Inv := by
  cases op with
  | step => exact stepKeepsTheInvariant s t hs h
  | timerTick | keyWrite | fbExport | timerExport =>
    cases h
    exact hs

theorem load_inv {bytes : List Byte} {s t : State} (hs : s.Inv) (h : load bytes s = .ok t) : t.Inv := by
  unfold load at h
  split at h
  · cases h
  · cases h
    exact Memory.writeBytes_wf 0x200 bytes hs

/-- The machine before its first step, whatever the image and whatever the state before `Reset`. -/
theorem boot_inv (image : Option (List Byte)) (s : State) : (boot image s).Inv := by
  have hreset : (resetMachine s).Inv := resetMeetsTheInvariant
  cases image with
  | none => exact hreset
  | some bytes =>
    cases hload : load bytes (resetMachine s) with
    | ok t =>
      simp only [boot, hload]
      exact load_inv hreset hload
    | error e =>
      simp only [boot, hload]
      exact hreset

/-- Settles O50: `Reset` and `Load` establish the invariant, and every operation keeps it. -/
theorem everyRunEndsInTheInvariant : Obligations.EveryRunEndsInTheInvariant :=
  fun r s => runOps_keeps AgentOp.apply_inv r.ops (boot_inv r.image s)

/-- Settles O47: an instruction always answers a next state, so a step does, and so does every operation of a run. -/
theorem everyStepAndEveryRunCompletes : Obligations.EveryStepAndEveryRunCompletes :=
  ⟨step_completes, fun r s => (everyRunEndsInTheInvariant r s).imp fun _ => And.left⟩

/-! ### A program that has ended (R219) -/

/-- The 12-bit operand of a jump holds every address below 0x1000. -/
theorem addrImm_setWidth {w : Word} (h : w.toNat < 0x1000) : addrImm (w.setWidth 12) = w := by
  apply BitVec.eq_of_toNat_eq
  rw [addrImm_toNat, BitVec.toNat_setWidth]
  exact Nat.mod_eq_of_lt h

theorem State.ended_iff (s : State) :
    s.ended = true ↔ s.pc.toNat < 0x1000 ∧ decodeWord s.fetchWord = .jp (s.pc.setWidth 12) := by
  simp [State.ended]

/-- The jump undoes the advance of the step. -/
theorem step_of_ended {s : State} (h : s.ended = true) : step s = .next s := by
  obtain ⟨hpc, hjp⟩ := s.ended_iff.1 h
  rw [step, hjp, exec_jp, addrImm_setWidth hpc]
  rfl

/-- Settles O59: the step of an ended program leads back to its own state, and so does every run of such steps. -/
theorem endedProgramStaysPut : Obligations.EndedProgramStaysPut :=
  fun _ h => run_of_step_self (step_of_ended h)

/-! ### Key writes (R212) -/

theorem keyPressed_keyWrite (k : RegIdx) (b : Bool) (s : State) (j : RegIdx) :
    (keyWrite k b s).keyPressed j = if j = k then b else s.keyPressed j := by
  simp [keyWrite, State.keyPressed, Vector.getElem_set, Fin.ext_iff, eq_comm]

theorem State.keyPressed_of_key_eq {s t : State} (h : t.key = s.key) (k : RegIdx) :
    t.keyPressed k = s.keyPressed k := by
  rw [State.keyPressed, h, State.keyPressed]

/-- Settles O44: a key write is one write to the keypad, which is outside every instruction's frame. -/
theorem keyWriteSetsOneKey : Obligations.KeyWriteSetsOneKey :=
  ⟨fun k b s => ⟨rfl, keyPressed_keyWrite k b s⟩,
    fun s _ h => State.keyPressed_of_key_eq (exec_key (s := s.advancePc) h)⟩

/-! ### The exports (R31, R211, R213) -/

theorem fbExport_length (cfg : Config.Sentinels) (s : State) : (fbExport cfg s).length = 2048 := by
  rw [fbExport, List.length_map, List.length_range]

theorem fbExport_getElem? (cfg : Config.Sentinels) (s : State) {r c : Nat} (hr : r < 32) (hc : c < 64) :
    (fbExport cfg s)[r * 64 + c]? = some (if Framebuffer.cell s.fb r c then cfg.set else cfg.clear) := by
  have hrow : (r * 64 + c) / 64 = r := by omega
  have hcol : (r * 64 + c) % 64 = c := by omega
  rw [fbExport, List.getElem?_map, List.getElem?_range (by omega), Option.map_some, hrow, hcol]

/-- Settles O45: element `r * 64 + c` is exported from row `r` and column `c`. -/
theorem framebufferExportIsRowMajor : Obligations.FramebufferExportIsRowMajor :=
  fun s => ⟨fun cfg => ⟨fbExport_length cfg s, fun _ _ => fbExport_getElem? cfg s⟩, rfl⟩

theorem soundOn_iff (s : State) : soundOn s = true ↔ 0 < s.st.toNat :=
  decide_eq_true_iff

/-- Settles O46: the operation answers the two counters as they are, and sound is a comparison of one of them. -/
theorem timerExportShowsTheCounters : Obligations.TimerExportShowsTheCounters :=
  fun s => ⟨rfl, soundOn_iff s, rfl⟩

end Sys2Proof.Machine
end

section
/-! PROOFS. `Reset`, `Load` and the machine before its first step, and the hazards of spec/70_reset_and_hazards.md R233
that are about memory. -/

namespace Sys2Proof.Machine

/-! ### Load (R231) -/

theorem load_of_gt {bytes : List Byte} (h : bytes.length > 3584) (s : State) : load bytes s = .error .capacity :=
  if_pos h

theorem load_of_le {bytes : List Byte} (h : bytes.length ≤ 3584) (s : State) :
    load bytes s = .ok (s.memWriteBytes 0x200 bytes) :=
  if_neg (Nat.not_lt.2 h)

/-- From a start inside memory, bytes written up to the end at most leave every byte before and after them. -/
theorem State.memRead_memWriteBytes_outside (s : State) {a b : Nat} {vs : List Byte} (hfit : a + vs.length ≤ 4096)
    (hb : b < 4096) (hout : b < a ∨ a + vs.length ≤ b) : (s.memWriteBytes a vs).memRead b = s.memRead b := by
  refine State.memRead_memWriteBytes_other s a b vs fun k hk => ?_
  rw [memIndex_of_lt hb, memIndex_of_lt (by omega)]
  omega

/-- The image stands at 0x200 whatever the state it is loaded into (R231). -/
theorem State.memRead_loaded (s : State) {bytes : List Byte} (hlen : bytes.length ≤ 3584) {k : Nat}
    (hk : k < bytes.length) : (s.memWriteBytes 0x200 bytes).memRead (0x200 + k) = bytes[k] :=
  State.memRead_memWriteBytes s 0x200 (0x200 + k) k bytes (by omega) hk rfl

/-- Settles O3: the two branches of `Load`, the second one sequence of byte writes that ends inside memory. -/
theorem loadCopiesOrFailsWhole : Obligations.LoadCopiesOrFailsWhole := by
  intro bytes s
  refine ⟨fun hlong => load_of_gt hlong s, fun hlen => ⟨_, load_of_le hlen s, rfl, ?_, ?_⟩⟩
  · exact fun k hk => State.memRead_loaded s hlen hk
  · exact fun a ha hout => State.memRead_memWriteBytes_outside s (by omega) ha hout

/-! ### Before the first step (R208, R232) -/

theorem boot_of_gt {bytes : List Byte} (h : bytes.length > 3584) (s : State) :
    boot (some bytes) s = resetMachine s := by
  rw [boot, load_of_gt h]

theorem boot_of_le {bytes : List Byte} (h : bytes.length ≤ 3584) (s : State) :
    boot (some bytes) s = (resetMachine s).memWriteBytes 0x200 bytes := by
  rw [boot, load_of_le h]

/-- Settles O4: `PC` is 0x200 after `Reset`, where the image begins. -/
theorem bootFetchesTheImageFirst : Obligations.BootFetchesTheImageFirst := by
  intro s
  refine ⟨rfl, fun bytes hlong => boot_of_gt hlong s, fun hi lo rest hlen => ?_⟩
  have hpc : (resetMachine s).pc.toNat = 0x200 := rfl
  have hhi : ((resetMachine s).memWriteBytes 0x200 (hi :: lo :: rest)).memRead 0x200 = hi :=
    State.memRead_loaded (resetMachine s) hlen (k := 0) (by simp)
  have hlo : ((resetMachine s).memWriteBytes 0x200 (hi :: lo :: rest)).memRead (0x200 + 1) = lo :=
    State.memRead_loaded (resetMachine s) hlen (k := 1) (by simp)
  rw [boot_of_le hlen, State.fetchWord, State.memRead2, State.memWriteBytes_pc, hpc, hhi, hlo]

/-! ### Reset (R36, R230) -/

theorem memRead_resetMachine (s : State) {a : Nat} (ha : a < 4096) :
    (resetMachine s).memRead a = Memory.unlisted a := by
  rw [State.memRead, resetMachine, State.reset, Memory.read_nil, memIndex_of_lt ha]

/-- Settles O1: memory lists nothing after `Reset`, and every other element is written out in `State.reset`. -/
theorem resetLeavesTheTableOfR36 : Obligations.ResetLeavesTheTableOfR36 := by
  intro s
  have hv (x : RegIdx) : (resetMachine s).readV x = 0 := Vector.getElem_replicate x.isLt
  have hstack (k : Nat) (hk : k < 16) : (resetMachine s).stack[k] = 0 := Vector.getElem_replicate hk
  have hkey (k : RegIdx) : (resetMachine s).keyPressed k = false := Vector.getElem_replicate k.isLt
  have hfont (k : Nat) (hk : k < 80) : (resetMachine s).memRead (0x50 + k) = Config.font[k] := by
    rw [memRead_resetMachine s (by omega), Memory.unlisted_font hk]
  have hzero (a : Nat) (ha : a < 4096) (hout : a < 0x50 ∨ 0xA0 ≤ a) : (resetMachine s).memRead a = 0 := by
    rw [memRead_resetMachine s ha, Memory.unlisted_zero hout]
  exact ⟨hv, rfl, rfl, hstack, rfl, rfl, rfl, hkey, Framebuffer.cell_clear, hfont, hzero, rfl⟩

/-! ### Stores and the regions they spare (R233) -/

/-- Memory after an instruction: the bytes it stores through `I`, as many as its access length, and nothing else. -/
theorem exec_stores {i : Instr} {s t : State} (h : exec i s = .next t) :
    t.mem = s.mem ∨ storesToMemory i = true ∧
      ∃ vs, vs.length = accessLength i ∧ t.mem = Memory.writeBytes s.mem (s.effAddr 0) vs := by
  cases i with
  | ldB x =>
    cases h
    exact .inr ⟨rfl, _, rfl, rfl⟩
  | stRegs x =>
    cases h
    exact .inr ⟨rfl, _, State.regBlock_length s x, rfl⟩
  | _ => exact .inl (exec_mem h nofun nofun)

/-- A byte that the instruction does not store reads as before. -/
theorem memRead_of_exec_not_stored {i : Instr} {s t : State} (h : exec i s = .next t) {a : Nat}
    (ha : storesToMemory i = true → ∀ k, k < accessLength i → memIndex a ≠ memIndex (s.effAddr k)) :
    t.memRead a = s.memRead a := by
  obtain hmem | ⟨hstores, vs, hlen, hmem⟩ := exec_stores h
  · exact State.memRead_of_mem_eq hmem a
  · rw [State.memRead, hmem]
    exact Memory.read_writeBytes_other s.mem (s.effAddr 0) a vs fun k hk => ha hstores k (hlen ▸ hk)

/-- Settles O57: every byte stored is at 0x0A0 or above once reduced; the advance of `PC` leaves `I` and memory. -/
theorem sparingStepsKeepFontAndReserved : Obligations.SparingStepsKeepFontAndReserved := by
  intro s t h hspares a ha
  refine memRead_of_exec_not_stored (s := s.advancePc) h fun hstores k hk => ?_
  have hstored : 0xA0 ≤ memIndex (s.effAddr k) := hspares hstores k hk
  exact Nat.ne_of_lt (Nat.lt_of_lt_of_le ha hstored)

/-- Settles O58: inside memory the port reduces nothing, so the bytes stored are those from `I` on. -/
theorem accessesInsideMemoryDoNotWrap : Obligations.AccessesInsideMemoryDoNotWrap := by
  intro i s t h hstays a ha hout
  refine memRead_of_exec_not_stored h fun _ k hk => ?_
  have hend : s.i.toNat + accessLength i ≤ 0x1000 := hstays
  have haddr : s.effAddr k = s.i.toNat + k := rfl
  rw [memIndex_of_lt ha, haddr, memIndex_of_lt (by omega)]
  omega

end Sys2Proof.Machine
end
